-- ==== Sys2Proof/Word.lean ====
section
/-! DEFINITION. The machine's word, byte and 64-bit types. -/

namespace Sys2Proof

/-- A 32-bit register or schedule word (00_scope R8, R10): unsigned, additions wrap. -/
abbrev Word := BitVec 32

/-- A message byte or an output character (00_scope R10, 10_state R19, R21). -/
abbrev Byte := BitVec 8

end Sys2Proof
end

