-- ==== Sys2Proof/Machine/Constants.lean ====
section
/-! DEFINITION. The Digest State type and the constants of SHA-1. -/

namespace Sys2Proof.Machine

/-- The Digest State, five 32-bit words (10_state R17). -/
structure Digest where
  h0 : Word
  h1 : Word
  h2 : Word
  h3 : Word
  h4 : Word
  deriving DecidableEq, Repr

/-- H[i] (00_scope R13). -/
def Digest.word (d : Digest) : Fin 5 → Word
  | 0 => d.h0
  | 1 => d.h1
  | 2 => d.h2
  | 3 => d.h3
  | 4 => d.h4

/-- The five words in register order. -/
def Digest.toList (d : Digest) : List Word := [d.h0, d.h1, d.h2, d.h3, d.h4]

/-- The initial values IV[0..4] (40_digest_state R76). Log 12. -/
def IV : Digest :=
  { h0 := 0x67452301, h1 := 0xEFCDAB89, h2 := 0x98BADCFE, h3 := 0x10325476, h4 := 0xC3D2E1F0 }

/-- The round constants K(q) (40_digest_state R77). Log 12. -/
def K : Fin 4 → Word
  | 0 => 0x5A827999
  | 1 => 0x6ED9EBA1
  | 2 => 0x8F1BBCDC
  | 3 => 0xCA62C1D6

end Sys2Proof.Machine
end

