-- ==== Sys2Proof/Syntax.lean ====
section
/-! DEFINITION. The syntax: the four commands of the opcode table, the registers of the window, host accesses,
the events that reach the block, and the host's pseudo-instructions. -/

namespace Sys2Proof

/-- The letter case of ENCODE (30_encoding R63). Named so that no constructor reads as a Lean keyword. -/
inductive LetterCase where
  | lower
  | upper
  deriving DecidableEq, Repr

/-- The commands: one constructor per row of spec/opcode_table.json (30_encoding R62). A command word has no
immediate and no register field; the letter case is its only operand (R67). -/
inductive Instr where
  /-- INIT, 0x00000001 (40_digest_state R78). -/
  | init
  /-- COMPRESS, 0x00000002 (41_block_compressor R94). -/
  | compress
  /-- FINAL, 0x00000003 (42_padding_framing R110). -/
  | final
  /-- ENCODE, 0x00000004 (lower) and 0x00000014 (upper) (43_output_encoder R121). -/
  | encode (case : LetterCase)
  deriving DecidableEq, Repr

/-- The registers of the window (20_memory R42). -/
inductive Reg where
  | cmd
  | status
  | msglenLo
  | msglenHi
  | h (i : Fin 5)
  | blk (i : Fin 16)
  | hex (k : Fin 10)
  deriving DecidableEq, Repr

/-- A window offset, 0x00 to 0xFF (20_memory R42, R43). -/
abbrev Offset := Fin 256

/-- The direction of a host access; a write carries its 32-bit value (30_encoding R69, log 13). -/
inductive Dir where
  | read
  | write (v : Word)
  deriving DecidableEq, Repr

/-- A host access that reaches the window: offset, width in BYTES, direction (30_encoding R69). Only width 4 is
admitted (20_memory R44); the others are spelled so that they can be shown to fault. -/
structure Access where
  off   : Offset
  width : Nat
  dir   : Dir
  deriving DecidableEq, Repr

/-- What can happen next at the block (00_scope R7, 44_host_access R139, 70_reset R169). -/
inductive Event where
  /-- HOST: an access at a window offset (44_host_access R124). -/
  | access (a : Access)
  /-- HOST: a transaction at a host address, which reaches the window or not (20_memory R43). -/
  | bus (addr : Nat) (width : Nat) (dir : Dir)
  /-- CORE's turn (44_host_access R130). -/
  | core
  /-- RESET asserted (70_reset R169, R172). -/
  | reset
  deriving DecidableEq, Repr

/-- The host's pseudo-instructions (30_encoding R72). WAIT carries how many polls read BUSY = 1 before the CORE
step comes (44_host_access R140: any finite number), log 16. -/
inductive Pseudo where
  | init
  | compress
  | final
  | encodeL
  | encodeU
  | wait (busyPolls : Nat)
  | setLen (len : Nat)
  | loadBlk (m : List Byte)
  | loadTail (t : List Byte)
  | rdDigest
  | rdHex
  deriving DecidableEq, Repr

end Sys2Proof
end

