-- ==== Sys2Proof/Machine/State.lean ====
section
/-! DEFINITION. The state, the reasons a step could stop, and the state after reset. -/

namespace Sys2Proof.Machine

/-- The fault causes, one per code of STATUS.CAUSE (60_exceptions R149); the codes are in Flags.lean. -/
inductive Cause where
  /-- Code 0: not a fault. -/
  | noFault
  /-- Code 1 (R150). -/
  | badAccess
  /-- Code 2 (R151). -/
  | unmapped
  /-- Code 3 (R152). -/
  | writeRo
  /-- Code 4 (R153). -/
  | busyWrite
  /-- Code 5 (R154). -/
  | illegalCmd
  /-- Code 6 (R155). -/
  | sequence
  /-- Code 7, reserved for the source's assertions; no rule raises it (R156, log 9). -/
  | internal
  deriving DecidableEq, Repr

/-- The fields of STATUS (10_state R23). The reserved bits have no storage: they read 0 in every state (R27). -/
structure Status where
  busy  : Bool
  done  : Bool
  fault : Bool
  cause : Cause
  deriving DecidableEq, Repr

/-- The state: the architectural state of one block instance (10_state R15) and, after it, the model's own three
fields (log 1, 2, 6). CMD is not storage (R34). -/
structure State where
  /-- H0..H4 (10_state R17). -/
  h        : Digest
  /-- BLK_W0..BLK_W15 (10_state R18). -/
  blk      : Vector Word 16
  /-- MSGLEN_LO (10_state R20). -/
  msglenLo : Word
  /-- MSGLEN_HI (10_state R20). -/
  msglenHi : Word
  /-- HEX_W0..HEX_W9 (10_state R21). -/
  hex      : Vector Word 10
  /-- STATUS (10_state R23). -/
  status   : Status
  /-- PEND, the hidden pending-command register (10_state R28). -/
  pend     : Option Instr
  /-- MODEL: the events still to come, first one first (44_host_access R139, log 2). -/
  schedule : List Event
  /-- MODEL: the values the host's reads have returned, oldest first (44_host_access R143, log 6). -/
  reads    : List Word
  /-- MODEL: how many `any32` draws have been made (00_scope R13, log 1). -/
  draws    : Nat
  deriving DecidableEq, Repr

/-- Reasons for a machine stop. There are none: every fault of the spec is the block's own fault state, a NEXT
state (60_exceptions R148, R157; log 8), so no step answers `fault`. -/
inductive Fault where
  deriving DecidableEq, Repr

/-- Reasons to give no meaning. -/
inductive Refusal where
  /-- Raised by `exec` for an instruction without a meaning (none is left): safe, a claim about it is unprovable. -/
  | notModelled (mnemonic : String)
  deriving DecidableEq, Repr

/-- The machine right after reset (10_state R34, 70_reset R172); the last three fields are the model's own and
their values DESIGN CHOICE (log 1, 2, 6). -/
def State.reset : State where
  h := IV
  blk := Vector.replicate 16 0x00000000
  msglenLo := 0x00000000
  msglenHi := 0x00000000
  hex := Vector.replicate 10 0x00000000
  status := { busy := false, done := false, fault := false, cause := .noFault }
  pend := none
  schedule := []
  reads := []
  draws := 0

end Sys2Proof.Machine
end

