-- ==== Sys2Proof/Machine/Words.lean ====
section
/-! DEFINITION. Word operators, byte packing and slices of byte sequences (00_scope R10–R12). -/

namespace Sys2Proof.Machine

/-- `rotl(x, n)`, for 1 ≤ n ≤ 31 (00_scope R11; the three amounts used are 1, 5 and 30, 41_block_compressor R81). -/
def rotl (x : Word) (n : Nat) : Word := (x <<< n) ||| (x >>> (32 - n))

/-- `be32`, the big-endian word of four bytes (00_scope R12). -/
def be32 (b0 b1 b2 b3 : Byte) : Word := b0 ++ b1 ++ b2 ++ b3

/-- `bytes_be32`, the four bytes of a word, most significant first (00_scope R12). -/
def bytesBe32 (w : Word) : List Byte :=
  [w.extractLsb' 24 8, w.extractLsb' 16 8, w.extractLsb' 8 8, w.extractLsb' 0 8]

/-- `be64`, the eight bytes of a 64-bit number, most significant first (00_scope R12). -/
def be64 (v : BitVec 64) : List Byte :=
  [v.extractLsb' 56 8, v.extractLsb' 48 8, v.extractLsb' 40 8, v.extractLsb' 32 8,
   v.extractLsb' 24 8, v.extractLsb' 16 8, v.extractLsb' 8 8, v.extractLsb' 0 8]

/-- `s[i:j]`, bytes i to j − 1 (00_scope R10). -/
def slice (s : List Byte) (i j : Nat) : List Byte := (s.drop i).take (j - i)

/-- The big-endian words of a byte sequence, four bytes each (41_block_compressor R83). A remainder of fewer than
four bytes gives no word; no caller has one (log 15). -/
def wordsOf : List Byte → List Word
  | b0 :: b1 :: b2 :: b3 :: rest => be32 b0 b1 b2 b3 :: wordsOf rest
  | _ => []

end Sys2Proof.Machine
end

