-- ==== Sys2Proof/Machine/Operands.lean ====
section
/-! DEFINITION. The implicit operands of the commands (30_encoding R67): the block, MSGLEN, the tail, the output
characters. -/

namespace Sys2Proof.Machine

/-- Byte j of a word, j = 0 the most significant: bits [31 − 8j : 24 − 8j] (10_state R19, R21). -/
def byteOfWord (w : Word) (j : Nat) : Byte := w.extractLsb' (24 - 8 * j) 8

/-- `BLKB(j)` (10_state R19). -/
def State.blkByte (s : State) (j : Fin 64) : Byte :=
  byteOfWord (s.blk[j.val / 4]'(by omega)) (j.val % 4)

/-- `BLKBYTES`, the block as a byte sequence (10_state R19). -/
def State.blkBytes (s : State) : List Byte := s.blk.toList.flatMap bytesBe32

/-- `HEXC(j)` (10_state R21). -/
def State.hexChar (s : State) (j : Fin 40) : Byte :=
  byteOfWord (s.hex[j.val / 4]'(by omega)) (j.val % 4)

/-- `MSGLEN = MSGLEN_HI · 2^32 + MSGLEN_LO` (10_state R20). -/
def State.msglen (s : State) : Nat := 2 ^ 32 * s.msglenHi.toNat + s.msglenLo.toNat

/-- `r = MSGLEN mod 64` (42_padding_framing R110, R112). -/
def State.tailLength (s : State) : Nat := s.msglen % 64

/-- `t = [BLKB(0), ..., BLKB(r − 1)]` (42_padding_framing R110, R111). -/
def State.tail (s : State) : List Byte := s.blkBytes.take s.tailLength

end Sys2Proof.Machine
end

