-- ==== Sys2Proof/Config.lean ====
section
/-! DEFINITION. What the spec leaves open: the free values (`any32`) and the base address of the window. -/

namespace Sys2Proof

/-- The n-th `any32` draw (00_scope R13: "an unconstrained 32-bit draw: the model continues under every value").
It has no body: no proof can learn a value of it. Log 1. -/
opaque Config.anyWord : Nat → Word

/-- BASE / 256. BASE is OPEN, "any address aligned to 256" (00_scope R9, 20_memory R41). No body. Log 4. -/
opaque Config.basePage : Nat

/-- BASE, the host address of window offset 0: a multiple of 256 by construction (20_memory R41). -/
def Config.base : Nat := 256 * Config.basePage

end Sys2Proof
end

