-- ==== Sys2Proof/Machine/Flags.lean ====
section
/-! DEFINITION. STATUS: the cause codes, the 32-bit value a read returns, and the field updates. The block has no
arithmetic flag (10_state R32): these are its only status bits. -/

namespace Sys2Proof.Machine

/-- The code of a cause in STATUS.CAUSE (60_exceptions R149). -/
def Cause.code : Cause → BitVec 3
  | .noFault => 0
  | .badAccess => 1
  | .unmapped => 2
  | .writeRo => 3
  | .busyWrite => 4
  | .illegalCmd => 5
  | .sequence => 6
  | .internal => 7

/-- A 1-bit field as a 32-bit number. -/
def bitWord (b : Bool) : Word := if b then 1 else 0

/-- `ReadReg(STATUS) = (CAUSE << 4) OR (FAULT << 2) OR (DONE << 1) OR BUSY` (44_host_access R125, 10_state R23). -/
def statusWord (st : Status) : Word :=
  (st.cause.code.setWidth 32 <<< 4) ||| (bitWord st.fault <<< 2) ||| (bitWord st.done <<< 1) ||| bitWord st.busy

/-- `STATUS.BUSY <- b`. -/
def State.setBusy (b : Bool) (s : State) : State := { s with status := { s.status with busy := b } }

/-- `STATUS.DONE <- b` (10_state R25). -/
def State.setDone (b : Bool) (s : State) : State := { s with status := { s.status with done := b } }

/-- `STATUS.FAULT <- 1; STATUS.CAUSE <- c` (10_state R26, 60_exceptions R157). -/
def State.setFault (c : Cause) (s : State) : State :=
  { s with status := { s.status with fault := true, cause := c } }

end Sys2Proof.Machine
end

