-- ==== Sys2Proof/Machine/Ops.lean ====
section
/-! DEFINITION. The named operations over the state: register updates, draws, the end of a command, fault entry
(the ONE way an exception is taken) and reset (the one way out of it). -/

namespace Sys2Proof.Machine

/-- `(H[0], ..., H[4]) <- d`. -/
def State.setH (d : Digest) (s : State) : State := { s with h := d }

/-- `HEX[0..9] <- v`. -/
def State.setHex (v : Vector Word 10) (s : State) : State := { s with hex := v }

/-- `BLK[i] <- v` (44_host_access R127). -/
def State.setBlk (i : Fin 16) (v : Word) (s : State) : State := { s with blk := s.blk.set i.val v i.isLt }

/-- `MSGLEN_LO <- v` (44_host_access R127). -/
def State.setMsglenLo (v : Word) (s : State) : State := { s with msglenLo := v }

/-- `MSGLEN_HI <- v` (44_host_access R127). -/
def State.setMsglenHi (v : Word) (s : State) : State := { s with msglenHi := v }

/-- `PEND <- p`. -/
def State.setPend (p : Option Instr) (s : State) : State := { s with pend := p }

/-- The events still to come. -/
def State.setSchedule (es : List Event) (s : State) : State := { s with schedule := es }

/-- A host read returns `v` (44_host_access R143, log 6). -/
def State.returnRead (v : Word) (s : State) : State := { s with reads := s.reads ++ [v] }

/-- A host read returns `any32`, a fresh draw (00_scope R13, 44_host_access R131, log 1). -/
def State.returnAny (s : State) : State :=
  { s with reads := s.reads ++ [Config.anyWord s.draws], draws := s.draws + 1 }

/-- The end of every command: `PEND <- none; STATUS.BUSY <- 0` (44_host_access R130). -/
def State.endCommand (s : State) : State := (s.setPend none).setBusy false

/-- Five draws for H. -/
def drawDigest (n : Nat) : Digest :=
  { h0 := Config.anyWord n, h1 := Config.anyWord (n + 1), h2 := Config.anyWord (n + 2),
    h3 := Config.anyWord (n + 3), h4 := Config.anyWord (n + 4) }

/-- Ten draws for HEX. -/
def drawHex (n : Nat) : Vector Word 10 := Vector.ofFn fun k => Config.anyWord (n + k.val)

/-- The in-flight command is abandoned: PEND and BUSY are cleared, H and HEX become unspecified
(60_exceptions R157). -/
def State.abandonCommand (s : State) : State :=
  { s.endCommand with h := drawDigest s.draws, hex := drawHex (s.draws + 5), draws := s.draws + 15 }

/-- `raise Fault(cause)`: FAULT and CAUSE are set; if BUSY was 1 the pending command is abandoned. DONE, BLK and
MSGLEN keep their values (60_exceptions R157). Taken only when FAULT = 0 (44_host_access R124). -/
def raiseFault (c : Cause) (s : State) : State :=
  if s.status.busy then (s.setFault c).abandonCommand else s.setFault c

/-- A fault raised by a host access: "the faulting access itself stores nothing; a faulting read returns any32"
(60_exceptions R157, 44_host_access R124). -/
def raiseFaultOn (dir : Dir) (c : Cause) (s : State) : State :=
  match dir with
  | .read => (raiseFault c s).returnAny
  | .write _ => raiseFault c s

/-- `Reset()`: every piece of the block's state takes its reset value (70_reset R172, R173); it is the only exit
from the fault state (60_exceptions R161). What is still to come, what the host has read and the draw counter are
not the block's and stay (log 2, 6). -/
def resetBlock (s : State) : State :=
  { State.reset with schedule := s.schedule, reads := s.reads, draws := s.draws }

end Sys2Proof.Machine
end

