-- ==== Sys2Proof/Machine/Compressor.lean ====
section
/-! DEFINITION. Family Block Compressor: the message schedule, the round functions, the compression function and
COMPRESS (41_block_compressor R81–R94). -/

namespace Sys2Proof.Machine

/-- W[t] from the words before it, t = their number: the XOR of W[t−3], W[t−8], W[t−14], W[t−16], rotated left by 1
(41_block_compressor R84). -/
def nextScheduleWord (W : List Word) : Word :=
  rotl (W.getD (W.length - 3) 0 ^^^ W.getD (W.length - 8) 0
    ^^^ W.getD (W.length - 14) 0 ^^^ W.getD (W.length - 16) 0) 1

/-- `n` more schedule words (41_block_compressor R84). -/
def expandSchedule : Nat → List Word → List Word
  | 0, W => W
  | n + 1, W => expandSchedule n (W ++ [nextScheduleWord W])

/-- `Schedule(B)`, W[0..79]: the sixteen words of the block, then sixty-four more (41_block_compressor R83–R85). A block
has words; the split on the first one only keeps proofs about an unknown block from unfolding sixty-four steps (log 15). -/
def messageSchedule (B : List Byte) : List Word :=
  match wordsOf B with
  | [] => []
  | w :: ws => expandSchedule 64 (w :: ws)

/-- The working variables (10_state R29): they exist only inside one compression. -/
structure WorkingVars where
  a : Word
  b : Word
  c : Word
  d : Word
  e : Word
  deriving DecidableEq, Repr

/-- The quadrant of round t: 0 for t = 0..19, 1 for 20..39, 2 for 40..59, 3 for 60..79 (41_block_compressor R86). It is
always 0..3, by its type (R93). -/
def quadrant (t : Nat) : Fin 4 :=
  if t ≤ 19 then 0 else if t ≤ 39 then 1 else if t ≤ 59 then 2 else 3

/-- `f(q, b, c, d)` (41_block_compressor R87). -/
def roundFunction (q : Fin 4) (b c d : Word) : Word :=
  match q with
  | 0 => (b &&& c) ||| (~~~b &&& d)
  | 1 => b ^^^ c ^^^ d
  | 2 => (b &&& c) ||| (b &&& d) ||| (c &&& d)
  | 3 => b ^^^ c ^^^ d

/-- `Round(t, (a, b, c, d, e), W)`, with `w = W[t]` (41_block_compressor R89, R82). -/
def shaRound (t : Nat) (w : Word) (v : WorkingVars) : WorkingVars :=
  { a := rotl v.a 5 + roundFunction (quadrant t) v.b v.c v.d + v.e + K (quadrant t) + w
    b := v.a
    c := rotl v.b 30
    d := v.c
    e := v.d }

/-- The rounds over the words W[t], W[t+1], ... in order; from t = 0 over a schedule's 80 words they are the rounds
0..79 (41_block_compressor R90 step 4, R85). -/
def rounds : Nat → List Word → WorkingVars → WorkingVars
  | _, [], v => v
  | t, w :: ws, v => rounds (t + 1) ws (shaRound t w v)

/-- The seed (41_block_compressor R90 step 3). -/
def seed (H : Digest) : WorkingVars := { a := H.h0, b := H.h1, c := H.h2, d := H.h3, e := H.h4 }

/-- The fold (41_block_compressor R91). -/
def foldVars (H : Digest) (v : WorkingVars) : Digest :=
  { h0 := H.h0 + v.a, h1 := H.h1 + v.b, h2 := H.h2 + v.c, h3 := H.h3 + v.d, h4 := H.h4 + v.e }

/-- `Compress(H, B)`, total and deterministic (41_block_compressor R90, R92). Irreducible, so that no proof unfolds
eighty rounds by accident: `compressBlock_eq` unfolds it once. -/
@[irreducible] def compressBlock (H : Digest) (B : List Byte) : Digest :=
  foldVars H (rounds 0 (messageSchedule B) (seed H))

/-- COMPRESS: H ← Compress(H, BLKBYTES), the command ends (41_block_compressor R94). -/
def execCompress (s : State) : Host.Outcome State Fault Refusal :=
  .next (s.setH (compressBlock s.h s.blkBytes)).endCommand

end Sys2Proof.Machine
end

