-- ==== Sys2Proof/Machine/DigestState.lean ====
section
/-! DEFINITION. Family Digest State: INIT (40_digest_state R78). -/

namespace Sys2Proof.Machine

/-- INIT: H ← IV, DONE ← 0, the command ends (40_digest_state R78). -/
def execInit (s : State) : Host.Outcome State Fault Refusal :=
  .next ((s.setH IV).setDone false).endCommand

end Sys2Proof.Machine
end

