-- ==== Sys2Proof/Machine/Encoder.lean ====
section
/-! DEFINITION. Family Output Encoder: the digits, the rendering and ENCODE (43_output_encoder R117–R122). -/

namespace Sys2Proof.Machine

/-- The code of the digit A of a letter case (43_output_encoder R117). -/
def letterA : LetterCase → Byte
  | .lower => 0x61
  | .upper => 0x41

/-- `Digit(v, case)` (43_output_encoder R117). Log 12. -/
def hexDigit (v : BitVec 4) (case : LetterCase) : Byte :=
  if v.toNat ≤ 9 then 0x30 + v.setWidth 8 else letterA case + (v.setWidth 8 - 10)

/-- Nibble p of a word counted from the most significant: bits [31 − 4p : 28 − 4p] (43_output_encoder R118). -/
def nibble (w : Word) (p : Nat) : BitVec 4 := w.extractLsb' (28 - 4 * p) 4

/-- The eight digits of a word (43_output_encoder R118). -/
def hexDigits (w : Word) (case : LetterCase) : List Byte := (List.range 8).map fun p => hexDigit (nibble w p) case

/-- `Encode(H, case)`, 40 characters in register order (43_output_encoder R118). -/
def renderDigest (H : Digest) (case : LetterCase) : List Byte := H.toList.flatMap fun w => hexDigits w case

/-- `be32(C[4k], C[4k+1], C[4k+2], C[4k+3])` (43_output_encoder R121, 20_memory R50). -/
def packChars (C : List Byte) (k : Nat) : Word :=
  be32 (C.getD (4 * k) 0) (C.getD (4 * k + 1) 0) (C.getD (4 * k + 2) 0) (C.getD (4 * k + 3) 0)

/-- The ten HEX words of a rendering (43_output_encoder R121). -/
def hexWords (C : List Byte) : Vector Word 10 := Vector.ofFn fun k => packChars C k.val

/-- ENCODE: HEX ← the rendering of H, the command ends (43_output_encoder R121, R122). -/
def execEncode (case : LetterCase) (s : State) : Host.Outcome State Fault Refusal :=
  .next (s.setHex (hexWords (renderDigest s.h case))).endCommand

end Sys2Proof.Machine
end

