-- ==== Sys2Proof/Machine/Padding.lean ====
section
/-! DEFINITION. Family Padding/Framing: the padding rule, the two hash folds and FINAL
(42_padding_framing R96–R112). -/

namespace Sys2Proof.Machine

/-- `(55 − r) mod 64`, the number of 0x00 bytes (42_padding_framing R101, R104). -/
def zeroCount (r : Nat) : Nat := ((55 - (r : Int)) % 64).toNat

/-- `be64((8 · L) mod 2^64)`, the message length in bits (42_padding_framing R103). -/
def lengthField (L : Nat) : List Byte := be64 (BitVec.ofNat 64 (8 * L))

/-- `PadTail(t, L)` (42_padding_framing R101). -/
def padTail (t : List Byte) (L : Nat) : List Byte :=
  t ++ [0x80] ++ List.replicate (zeroCount t.length) 0x00 ++ lengthField L

/-- `PadMsg(m)` (42_padding_framing R104). -/
def padMsg (m : List Byte) : List Byte :=
  m ++ [0x80] ++ List.replicate (zeroCount m.length) 0x00 ++ lengthField m.length

/-- Compress blocks 0..N−1 of P in order, from S (42_padding_framing R107, R108). -/
def foldBlocks (S : Digest) (P : List Byte) (N : Nat) : Digest :=
  (List.range N).foldl (fun S j => compressBlock S (slice P (64 * j) (64 * j + 64))) S

/-- `SHA1(m)`, the in-memory path (42_padding_framing R97, R107). -/
def sha1 (m : List Byte) : Digest := foldBlocks IV (padMsg m) ((padMsg m).length / 64)

/-- The padded tail of a message (42_padding_framing R99, R108). -/
def messageTail (m : List Byte) : List Byte :=
  padTail (slice m (64 * (m.length / 64)) m.length) m.length

/-- `Stream(m)`, the streaming path (42_padding_framing R98, R99, R108). -/
def stream (m : List Byte) : Digest :=
  foldBlocks (foldBlocks IV m (m.length / 64)) (messageTail m) ((messageTail m).length / 64)

/-- The compressions of FINAL: the first padded block, and the second if there is one (42_padding_framing R110). -/
def finalDigest (S : Digest) (P : List Byte) : Digest :=
  if P.length = 128 then compressBlock (compressBlock S (slice P 0 64)) (slice P 64 128)
  else compressBlock S (slice P 0 64)

/-- FINAL: pad the tail in BLK to one or two blocks, compress them, DONE ← 1, the command ends
(42_padding_framing R110–R112). -/
def execFinal (s : State) : Host.Outcome State Fault Refusal :=
  .next ((s.setH (finalDigest s.h (padTail s.tail s.msglen))).setDone true).endCommand

end Sys2Proof.Machine
end

