-- ==== Sys2Proof/Machine/Dispatch.lean ====
section
/-! DEFINITION. exec: the CORE step of each command (44_host_access R130). -/

namespace Sys2Proof.Machine

def exec (i : Instr) (s : State) : Host.Outcome State Fault Refusal :=
  match i with
  -- 40_digest_state R78
  | .init => Sys2Proof.Machine.execInit s
  -- 41_block_compressor R94
  | .compress => Sys2Proof.Machine.execCompress s
  -- 42_padding_framing R110
  | .final => Sys2Proof.Machine.execFinal s
  -- 43_output_encoder R121
  | .encode case => Sys2Proof.Machine.execEncode case s

end Sys2Proof.Machine
end

