-- ==== Sys2Proof/WellFormed.lean ====
section
/-! DEFINITION. Well-formedness checks on syntax: commands, host accesses, pseudo-instructions. -/

namespace Sys2Proof

/-- Every command term is well formed: there is no operand whose range could be missed (30_encoding R67). -/
def Instr.wf : Instr → Bool
  | .init => true
  | .compress => true
  | .final => true
  | .encode .lower => true
  | .encode .upper => true

/-- The access is 32 bits wide (20_memory R44). -/
def Access.widthOk (a : Access) : Bool := a.width == 4

/-- The access is at a multiple of 4 (20_memory R44). -/
def Access.aligned (a : Access) : Bool := a.off.val % 4 == 0

/-- The offset is outside the unmapped ranges 0x024–0x03F and 0x0A8–0x0FF (20_memory R45, 44_host_access R124). -/
def Access.mapped (a : Access) : Bool :=
  !((0x24 ≤ a.off.val && a.off.val ≤ 0x3F) || 0xA8 ≤ a.off.val)

/-- An admitted access to a mapped offset (20_memory R44, R45). -/
def Access.wf (a : Access) : Bool := a.widthOk && a.aligned && a.mapped

/-- The operand ranges of the pseudo-instructions (30_encoding R72: "m a 64-byte sequence", "t a sequence of
r ≤ 63 bytes"; a length fits MSGLEN's 64 bits, 10_state R20). -/
def Pseudo.wf : Pseudo → Bool
  | .init => true
  | .compress => true
  | .final => true
  | .encodeL => true
  | .encodeU => true
  | .wait _ => true
  | .setLen len => len < 2 ^ 64
  | .loadBlk m => m.length == 64
  | .loadTail t => t.length ≤ 63
  | .rdDigest => true
  | .rdHex => true

end Sys2Proof
end

