-- ==== Sys2Proof/Decode.lean ====
section
/-! DEFINITION. Decoding and encoding of command words (30_encoding R61–R66) and of window offsets and host
addresses (20_memory R42, R43). -/

namespace Sys2Proof

/-- Field OP, bits [3:0] (30_encoding R61). -/
def fieldOp (w : Word) : BitVec 4 := w.extractLsb' 0 4

/-- Field U, bit [4] (30_encoding R61, R63). -/
def fieldU (w : Word) : BitVec 1 := w.extractLsb' 4 1

/-- Field RSV, bits [31:5] (30_encoding R61, R64). -/
def fieldRsv (w : Word) : BitVec 27 := w.extractLsb' 5 27

/-- Why a word is illegal (60_exceptions R154 names the three grounds). The block tells none of them apart: all
raise ILLEGAL_CMD. Log 11. -/
inductive IllegalWord where
  /-- RSV ≠ 0 (30_encoding R64). -/
  | reservedBits
  /-- OP is 0x0 or 0x5..0xF (30_encoding R62). -/
  | unassignedOp
  /-- U = 1 with OP = INIT, COMPRESS or FINAL (30_encoding R63). -/
  | caseBit
  deriving DecidableEq, Repr

/-- The result of decoding: a command or `Illegal` with its ground. -/
inductive Decoded where
  | command (i : Instr)
  | illegal (why : IllegalWord)
  deriving DecidableEq, Repr

/-- Decode of an OP that takes no letter case: U must be 0 (30_encoding R63). -/
def decodePlain (u : BitVec 1) (i : Instr) : Decoded :=
  if u = 0 then .command i else .illegal .caseBit

/-- Field U as a letter case (30_encoding R63). -/
def caseOfU (u : BitVec 1) : LetterCase := if u = 1 then .upper else .lower

/-- `Decode(v)`, total on every word (30_encoding R65). -/
def decode (w : Word) : Decoded :=
  if fieldRsv w ≠ 0 then .illegal .reservedBits
  else if fieldOp w = 0x1 then decodePlain (fieldU w) .init
  else if fieldOp w = 0x2 then decodePlain (fieldU w) .compress
  else if fieldOp w = 0x3 then decodePlain (fieldU w) .final
  else if fieldOp w = 0x4 then .command (.encode (caseOfU (fieldU w)))
  else .illegal .unassignedOp

/-- Field OP of a command (30_encoding R62). -/
def opOf : Instr → BitVec 4
  | .init => 0x1
  | .compress => 0x2
  | .final => 0x3
  | .encode _ => 0x4

/-- Field U of a command (30_encoding R63). -/
def uOf : Instr → BitVec 1
  | .init => 0
  | .compress => 0
  | .final => 0
  | .encode .lower => 0
  | .encode .upper => 1

/-- The command word RSV ++ U ++ OP (30_encoding R61, R64). -/
def encode (i : Instr) : Word := (0 : BitVec 27) ++ uOf i ++ opOf i

/-- The command, where the word is legal. -/
def Decoded.instr? : Decoded → Option Instr
  | .command i => some i
  | .illegal _ => none

/-- The command our decoder reads from table bits `w`, of which the row gives `nbits`. A command word is one
32-bit number moved by one access, so bit k of `w` is bit k of the word and no byte order enters (20_memory R46,
30_encoding R60, R68; log 10). No command is longer than 32 bits. -/
def decodeTableWord (nbits w : Nat) : Option Instr :=
  if nbits ≤ 32 then (decode (BitVec.ofNat 32 (w % 2 ^ nbits))).instr? else none

/-- The offset of a register (20_memory R42). -/
def Reg.offset : Reg → Offset
  | .cmd => 0x000
  | .status => 0x004
  | .msglenLo => 0x008
  | .msglenHi => 0x00C
  | .h i => ⟨0x010 + 4 * i.val, by omega⟩
  | .blk i => ⟨0x040 + 4 * i.val, by omega⟩
  | .hex k => ⟨0x080 + 4 * k.val, by omega⟩

/-- The register at an aligned offset; `none` for 0x024–0x03F and 0x0A8–0x0FF (20_memory R42, R45). -/
def regAt (off : Offset) : Option Reg :=
  if off.val < 0x004 then some .cmd
  else if off.val < 0x008 then some .status
  else if off.val < 0x00C then some .msglenLo
  else if off.val < 0x010 then some .msglenHi
  else if h : 0x010 ≤ off.val ∧ off.val < 0x024 then some (.h ⟨(off.val - 0x010) / 4, by omega⟩)
  else if h : 0x040 ≤ off.val ∧ off.val < 0x080 then some (.blk ⟨(off.val - 0x040) / 4, by omega⟩)
  else if h : 0x080 ≤ off.val ∧ off.val < 0x0A8 then some (.hex ⟨(off.val - 0x080) / 4, by omega⟩)
  else none

/-- Address decode: the window offset of a host address, if BASE ≤ addr ≤ BASE + 0xFF (20_memory R43). -/
def offsetOf (addr : Nat) : Option Offset :=
  if h : Config.base ≤ addr ∧ addr ≤ Config.base + 0xFF then some ⟨addr - Config.base, by omega⟩ else none

end Sys2Proof
end

