-- ==== Sys2Proof/Machine/HostAccess.lean ====
section
/-! DEFINITION. The HOST step: register reads and writes, command issue, the checks of an access in their order,
accesses in the fault state, and address decode (44_host_access R124–R133, 20_memory R43). -/

namespace Sys2Proof.Machine

/-- The stored value of a register (44_host_access R125). -/
def regValue (s : State) : Reg → Word
  | .cmd => 0x00000000
  | .status => statusWord s.status
  | .msglenLo => s.msglenLo
  | .msglenHi => s.msglenHi
  | .h i => s.h.word i
  | .blk i => s.blk[i.val]
  | .hex k => s.hex[k.val]

/-- H0..H4 and HEX_W0..HEX_W9: the registers whose reads are draws while BUSY = 1 (44_host_access R131). -/
def isResultReg : Reg → Bool
  | .h _ => true
  | .hex _ => true
  | .cmd => false
  | .status => false
  | .msglenLo => false
  | .msglenHi => false
  | .blk _ => false

/-- RO = STATUS, H0..H4, HEX_W0..HEX_W9 (44_host_access R124, R128). -/
def isReadOnly : Reg → Bool
  | .status => true
  | .h _ => true
  | .hex _ => true
  | .cmd => false
  | .msglenLo => false
  | .msglenHi => false
  | .blk _ => false

/-- `ReadReg(off)`: the value goes to the host; no state of the block changes (44_host_access R125, R126, R131). -/
def readReg (r : Reg) (s : State) : State :=
  if s.status.busy && isResultReg r then s.returnAny else s.returnRead (regValue s r)

/-- `WriteReg(off, v)` for the writable data registers (44_host_access R127). A read-only register is never written
here and CMD has no storage. -/
def writeReg (r : Reg) (v : Word) (s : State) : State :=
  match r with
  | .msglenLo => s.setMsglenLo v
  | .msglenHi => s.setMsglenHi v
  | .blk i => s.setBlk i v
  | .cmd => s
  | .status => s
  | .h _ => s
  | .hex _ => s

/-- COMPRESS and FINAL, the commands that SEQUENCE guards (60_exceptions R155). -/
def changesDigest : Instr → Bool
  | .compress => true
  | .final => true
  | .init => false
  | .encode _ => false

/-- `Issue(v)`, reached with BUSY = 0 and FAULT = 0 (44_host_access R129). -/
def issue (v : Word) (s : State) : State :=
  match decode v with
  | .illegal _ => raiseFault .illegalCmd s
  | .command i =>
    if changesDigest i && s.status.done then raiseFault .sequence s
    else (s.setPend (some i)).setBusy true

/-- A write that passed the access checks goes to CMD or to a data register (44_host_access R124). -/
def hostWrite (r : Reg) (v : Word) (s : State) : State :=
  match r with
  | .cmd => issue v s
  | .status => s
  | .msglenLo => writeReg .msglenLo v s
  | .msglenHi => writeReg .msglenHi v s
  | .h _ => s
  | .blk i => writeReg (.blk i) v s
  | .hex _ => s

/-- `FaultStateAccess`: a write has no effect; a read of an admitted mapped offset answers as ever; any other read
returns `any32` (44_host_access R133). -/
def faultStateAccess (a : Access) (s : State) : State :=
  match a.dir with
  | .write _ => s
  | .read =>
    if a.width ≠ 4 ∨ a.off.val % 4 ≠ 0 then s.returnAny
    else match regAt a.off with
      | none => s.returnAny
      | some r => readReg r s

/-- An admitted access to register `r`, outside the fault state (44_host_access R124, the last five checks). -/
def regAccess (r : Reg) (dir : Dir) (s : State) : State :=
  match dir with
  | .read => readReg r s
  | .write v =>
    if isReadOnly r then raiseFaultOn dir .writeRo s
    else if s.status.busy then raiseFaultOn dir .busyWrite s
    else hostWrite r v s

/-- `HostAccess(dir, off, width, v)`, with its checks in the order of 44_host_access R124 (60_exceptions R158). -/
def hostAccess (a : Access) (s : State) : State :=
  if s.status.fault then faultStateAccess a s
  else if a.width ≠ 4 ∨ a.off.val % 4 ≠ 0 then raiseFaultOn a.dir .badAccess s
  else match regAt a.off with
    | none => raiseFaultOn a.dir .unmapped s
    | some r => regAccess r a.dir s

/-- A host-bus transaction: it reaches the block iff its address lies in the window (20_memory R43). One that does
not is another target's: nothing of this block changes (log 14). -/
def busAccess (addr width : Nat) (dir : Dir) (s : State) : State :=
  match offsetOf addr with
  | none => s
  | some off => hostAccess { off := off, width := width, dir := dir } s

end Sys2Proof.Machine
end

