-- ==== Sys2Proof/Machine/HostProgram.lean ====
section
/-! DEFINITION. The host's syntax: RD32, WR32 and the pseudo-instructions, as lists of events
(30_encoding R70–R72). -/

namespace Sys2Proof.Machine

/-- `RD32 r` (30_encoding R70). -/
def rd32 (r : Reg) : Event := .access { off := r.offset, width := 4, dir := .read }

/-- `WR32 r, v` (30_encoding R70). -/
def wr32 (r : Reg) (v : Word) : Event := .access { off := r.offset, width := 4, dir := .write v }

/-- `LOADBLK m`: WR32 BLK_Wi, be32(m[4i], ..., m[4i+3]) for i = 0..15 in order (30_encoding R72, 20_memory R47). -/
def loadBlk (m : List Byte) : List Event :=
  List.ofFn fun i : Fin 16 => wr32 (.blk i) ((wordsOf m).getD i.val 0)

/-- The accesses of a pseudo-instruction (30_encoding R72). For WAIT: the polls that read BUSY = 1, the CORE step,
the poll that reads BUSY = 0 (44_host_access R140, log 16). -/
def expand : Pseudo → List Event
  | .init => [wr32 .cmd 0x00000001]
  | .compress => [wr32 .cmd 0x00000002]
  | .final => [wr32 .cmd 0x00000003]
  | .encodeL => [wr32 .cmd 0x00000004]
  | .encodeU => [wr32 .cmd 0x00000014]
  | .wait n => List.replicate n (rd32 .status) ++ [.core, rd32 .status]
  | .setLen L => [wr32 .msglenLo (BitVec.ofNat 32 L), wr32 .msglenHi (BitVec.ofNat 32 (L / 2 ^ 32))]
  | .loadBlk m => loadBlk m
  | .loadTail t => loadBlk (t ++ List.replicate (64 - t.length) 0x00)
  | .rdDigest => [rd32 (.h 0), rd32 (.h 1), rd32 (.h 2), rd32 (.h 3), rd32 (.h 4)]
  | .rdHex =>
    [rd32 (.hex 0), rd32 (.hex 1), rd32 (.hex 2), rd32 (.hex 3), rd32 (.hex 4),
     rd32 (.hex 5), rd32 (.hex 6), rd32 (.hex 7), rd32 (.hex 8), rd32 (.hex 9)]

/-- A host program's accesses (30_encoding R71: the block observes only the resulting sequence). -/
def expandAll (ps : List Pseudo) : List Event := ps.flatMap expand

end Sys2Proof.Machine
end

