-- ==== Sys2Proof/Machine/Agents.lean ====
section
/-! DEFINITION. The agents' turns: the CORE step, one event, and the placing of a command for the next step. -/

namespace Sys2Proof.Machine

/-- CORE's turn: it performs the pending command; with none pending there is nothing to do and all state is held
(44_host_access R130, 60_exceptions R168). -/
def coreStep (s : State) : Host.Outcome State Fault Refusal :=
  match s.pend with
  | none => .next s
  | some i => exec i s

/-- One event (44_host_access R139, 70_reset R169). -/
def perform (e : Event) (s : State) : Host.Outcome State Fault Refusal :=
  match e with
  | .access a => .next (hostAccess a s)
  | .bus addr width dir => .next (busAccess addr width dir s)
  | .core => coreStep s
  | .reset => .next (resetBlock s)

/-- The state in which the next step runs the command word `w`. For a legal word: the state a host's write of it to
CMD leaves (PEND and BUSY set, 44_host_access R129), with CORE to move. For an illegal word: the host's write of it
to CMD comes next. Log 5. -/
def placeCommand (s : State) (nbits w : Nat) : State :=
  match decodeTableWord nbits w with
  | some i => ((s.setPend (some i)).setBusy true).setSchedule (.core :: s.schedule)
  | none => s.setSchedule (wr32 .cmd (BitVec.ofNat 32 (w % 2 ^ nbits)) :: s.schedule)

end Sys2Proof.Machine
end

