-- ==== Sys2Proof/Machine/Step.lean ====
section
/-! DEFINITION. One step: the first event of the schedule, or, where nothing more comes from outside, CORE. -/

namespace Sys2Proof.Machine

/-- One step of the machine (44_host_access R139; with no event left, R140: a pending command is performed;
log 2, 3). -/
def step (s : State) : Host.Outcome State Fault Refusal :=
  match s.schedule with
  | [] => coreStep s
  | e :: rest => perform e (s.setSchedule rest)

/-- `s` with the command word placed so that the next step runs it (log 5). -/
def State.withFetchWord (s : State) (nbits w : Nat) : State := placeCommand s nbits w

end Sys2Proof.Machine
end

