-- ==== Sys2Proof/Safety.lean ====
section
/-! DEFINITION. What counts as a safe run, in the terms the claims use: the invariant, fault entry as a relation, the end
of a run, the commands a run performs, and the host's duty. -/

namespace Sys2Proof.Machine

/-- The relations between STATUS and PEND that the spec states of every state: BUSY is 1 exactly when PEND ≠ none
(10_state R24); CAUSE is 0 exactly when FAULT = 0 (10_state R23); CAUSE is never INTERNAL (60_exceptions R156);
nothing is pending in the fault state (44_host_access R130); a pending COMPRESS or FINAL implies DONE = 0
(44_host_access R129, 41_block_compressor R94). -/
abbrev State.Coherent (s : State) : Prop :=
  (s.status.busy = true ↔ s.pend ≠ none) ∧
  (s.status.fault = true ↔ s.status.cause ≠ .noFault) ∧
  s.status.cause ≠ .internal ∧
  (s.status.fault = true → s.pend = none) ∧
  (s.pend = some .compress ∨ s.pend = some .final → s.status.done = false)

/-- The host may write: not faulted and idle (44_host_access R137). -/
abbrev State.Idle (s : State) : Prop := s.status.fault = false ∧ s.status.busy = false

/-- `t` agrees with `s` on the whole of the block's own state (10_state R15). -/
abbrev SameBlock (s t : State) : Prop :=
  t.h = s.h ∧ t.blk = s.blk ∧ t.msglenLo = s.msglenLo ∧ t.msglenHi = s.msglenHi ∧ t.hex = s.hex ∧
  t.status = s.status ∧ t.pend = s.pend

/-- Fault entry as a relation (60_exceptions R157): FAULT and CAUSE are set; DONE, BLK and MSGLEN keep their values;
if BUSY was 1 nothing stays pending and H and HEX are unspecified, so nothing is said of them; if BUSY was 0, H, HEX,
PEND and BUSY keep their values. -/
abbrev FaultEntered (c : Cause) (s t : State) : Prop :=
  t.status.fault = true ∧ t.status.cause = c ∧ t.status.done = s.status.done ∧
  t.blk = s.blk ∧ t.msglenLo = s.msglenLo ∧ t.msglenHi = s.msglenHi ∧ t.status.busy = false ∧
  (s.status.busy = true → t.pend = none) ∧
  (s.status.busy = false → t.h = s.h ∧ t.hex = s.hex ∧ t.pend = s.pend)

/-- A read returns exactly one value to the host and a write returns none (44_host_access R124, R143). -/
abbrev ReturnsToHost (dir : Dir) (s t : State) : Prop :=
  match dir with
  | .read => ∃ v : Word, t.reads = s.reads ++ [v]
  | .write _ => t.reads = s.reads

/-- The good end of a run (44_host_access R141): the last access is done, BUSY = 0 and FAULT = 0. -/
abbrev State.GoodEnd (s : State) : Prop :=
  s.schedule = [] ∧ s.status.busy = false ∧ s.status.fault = false

/-- The observable result of a run (44_host_access R143): the readable registers and the values the host read. -/
structure Observation where
  statusValue : Word
  msglenLo    : Word
  msglenHi    : Word
  h           : Digest
  blk         : Vector Word 16
  hex         : Vector Word 10
  reads       : List Word
  deriving DecidableEq, Repr

/-- What is observed of a state (44_host_access R143). -/
def State.observe (s : State) : Observation where
  statusValue := statusWord s.status
  msglenLo := s.msglenLo
  msglenHi := s.msglenHi
  h := s.h
  blk := s.blk
  hex := s.hex
  reads := s.reads

/-- RESET is the next event. -/
abbrev State.ResetNext (s : State) : Prop := s.schedule.head? = some .reset

/-- The host access to the window that comes next, if one does (20_memory R43). -/
def State.nextAccess (s : State) : Option Access :=
  match s.schedule with
  | .access a :: _ => some a
  | .bus addr width dir :: _ => (offsetOf addr).map fun off => { off := off, width := width, dir := dir }
  | .core :: _ => none
  | .reset :: _ => none
  | [] => none

/-- The command the next step performs, if the next turn is CORE's and one is pending. -/
def State.nextCommand (s : State) : Option Instr :=
  match s.schedule with
  | [] => s.pend
  | .core :: _ => s.pend
  | .access _ :: _ => none
  | .bus _ _ _ :: _ => none
  | .reset :: _ => none

/-- The commands CORE performs in `k` steps, in order, each with the state it is performed in. -/
def performed : Nat → State → List (Instr × State)
  | 0, _ => []
  | k + 1, s =>
    (match s.nextCommand with
      | some i => [(i, s)]
      | none => []) ++
    (match step s with
      | .next t => performed k t
      | .fault _ => []
      | .refused _ => [])

/-- ENCODE, the command that leaves H and DONE alone (43_output_encoder R122). -/
def isEncode : Instr → Bool
  | .encode _ => true
  | .init => false
  | .compress => false
  | .final => false

/-- The host's duty for message `m` (42_padding_framing R113), on the commands performed: but for ENCODEs, exactly
len(m) / 64 COMPRESS commands, the j-th with BLK holding m[64j : 64j + 64], then one FINAL with MSGLEN = len(m) and
BLK bytes 0..r−1 holding m[64n : len(m)]. -/
def MeetsDuty (m : List Byte) (ps : List (Instr × State)) : Prop :=
  ∃ (cs : List State) (f : State),
    ps.filter (fun p => !isEncode p.1) = cs.map (fun c => (Instr.compress, c)) ++ [(Instr.final, f)] ∧
    cs.map State.blkBytes = (List.range (m.length / 64)).map (fun j => slice m (64 * j) (64 * j + 64)) ∧
    f.msglen = m.length ∧
    f.tail = slice m (64 * (m.length / 64)) m.length

end Sys2Proof.Machine
end

