-- ==== Sys2Proof/Certificates/Slice0/Obligations.lean ====
section
/-! DEFINITION. The statements for the provers. None is proved here. -/

open Sys2Proof Sys2Proof.Machine

/-! ### Reset -/

/-- 70_reset R172, R173: the reset step, whatever the state and whether or not a command is pending, sets every piece of
state to its reset value. The clause on `schedule` is the model's own choice (log 2): the events still to come stay. -/
def Obligations.ResetStepSetsEveryRegister : Prop :=
  ∀ (s : State) (rest : List Event), s.schedule = .reset :: rest →
    ∃ t, step s = .next t ∧
      t.h = { h0 := 0x67452301, h1 := 0xEFCDAB89, h2 := 0x98BADCFE, h3 := 0x10325476, h4 := 0xC3D2E1F0 } ∧
      (∀ i : Fin 16, t.blk[i] = 0x00000000) ∧ t.msglenLo = 0x00000000 ∧ t.msglenHi = 0x00000000 ∧
      (∀ k : Fin 10, t.hex[k] = 0x00000000) ∧
      t.status.busy = false ∧ t.status.done = false ∧ t.status.fault = false ∧ t.status.cause.code = 0 ∧
      t.pend = none ∧ t.schedule = rest

/-- 10_state R34: the values after reset; CMD has no storage and reads 0, STATUS reads 0. -/
def Obligations.ResetStateHoldsTheSpecValues : Prop :=
  State.reset.h = { h0 := 0x67452301, h1 := 0xEFCDAB89, h2 := 0x98BADCFE, h3 := 0x10325476, h4 := 0xC3D2E1F0 } ∧
  (∀ i : Fin 16, State.reset.blk[i] = 0x00000000) ∧
  State.reset.msglenLo = 0x00000000 ∧ State.reset.msglenHi = 0x00000000 ∧
  (∀ k : Fin 10, State.reset.hex[k] = 0x00000000) ∧
  regValue State.reset .cmd = 0x00000000 ∧ regValue State.reset .status = 0x00000000 ∧
  State.reset.status = { busy := false, done := false, fault := false, cause := .noFault } ∧
  State.reset.pend = none

/-- 70_reset R174 (derived there): the reset state is the state INIT produces, so INIT changes nothing of it. -/
def Obligations.InitAfterResetChangesNothing : Prop :=
  ∀ s : State, SameBlock State.reset s → ∃ t, exec .init s = .next t ∧ SameBlock s t

/-! ### Encoding -/

/-- A sanity statement on 30_encoding R62, R65: the five legal words, and some illegal ones. -/
def Obligations.DecodeReadsTheFiveLegalWords : Prop :=
  decode 0x00000001 = .command .init ∧
  decode 0x00000002 = .command .compress ∧
  decode 0x00000003 = .command .final ∧
  decode 0x00000004 = .command (.encode .lower) ∧
  decode 0x00000014 = .command (.encode .upper) ∧
  (decode 0x00000000).instr? = none ∧ (decode 0x00000012).instr? = none ∧ (decode 0x80000001).instr? = none

/-- 30_encoding R65: exactly five words are legal, each with its command; every other word is Illegal. -/
def Obligations.ExactlyFiveWordsAreLegal : Prop :=
  ∀ w : Word,
    (∀ i, decode w = .command i ↔
      (w = 0x00000001 ∧ i = .init) ∨ (w = 0x00000002 ∧ i = .compress) ∨ (w = 0x00000003 ∧ i = .final) ∨
      (w = 0x00000004 ∧ i = .encode .lower) ∨ (w = 0x00000014 ∧ i = .encode .upper)) ∧
    ((∃ why, decode w = .illegal why) ↔
      w ≠ 0x00000001 ∧ w ≠ 0x00000002 ∧ w ≠ 0x00000003 ∧ w ≠ 0x00000004 ∧ w ≠ 0x00000014)

/-- Decoding and encoding are inverse on all commands and all words (30_encoding R61–R65): no bit is dropped and no
second word reads as a command. The third clause is the model's (log 10): how a table word of n bits is numbered, that the
bits above n are 0, and that none of more than 32 bits decodes. -/
def Obligations.DecodeAndEncodeAreInverse : Prop :=
  (∀ i : Instr, i.wf = true → decode (encode i) = .command i) ∧
  (∀ (w : Word) (i : Instr), decode w = .command i → encode i = w) ∧
  (∀ (nbits n : Nat) (i : Instr), decodeTableWord nbits n = some i →
    nbits ≤ 32 ∧ BitVec.ofNat 32 (n % 2 ^ nbits) = encode i)

/-! ### The agents' steps -/

/-- 44_host_access R130 with the model's order of turns (log 2, 3): CORE performs exactly the pending command, on its turn
or when nothing more comes from outside; with none pending all state is held (60_exceptions R168). -/
def Obligations.CoreTurnPerformsThePendingCommand : Prop :=
  ∀ (s : State) (rest : List Event),
    (∀ i, s.pend = some i → s.schedule = [] → step s = exec i s) ∧
    (∀ i, s.pend = some i → s.schedule = .core :: rest → step s = exec i { s with schedule := rest }) ∧
    (s.pend = none → s.schedule = [] → step s = .next s) ∧
    (s.pend = none → s.schedule = .core :: rest → step s = .next { s with schedule := rest })

/-- The step runs the decoded command (44_host_access R129, R130): a host's write of a legal word to CMD while idle makes
its command pending, and CORE's next turn is `exec` of it. -/
def Obligations.CommandWriteThenCoreTurnRunsTheDecodedCommand : Prop :=
  ∀ (s : State) (w : Word) (i : Instr) (rest : List Event), s.Idle → decode w = .command i →
    (i = .compress ∨ i = .final → s.status.done = false) →
    s.schedule = .access { off := 0, width := 4, dir := .write w } :: .core :: rest →
    ∃ t, step s = .next t ∧
      t = { s with pend := some i, status := { s.status with busy := true }, schedule := .core :: rest } ∧
      step t = exec i { t with schedule := rest }

/-- The step runs the command whose table word is placed (log 5): PEND and BUSY as the command write leaves them. -/
def Obligations.StepRunsThePlacedCommand : Prop :=
  ∀ (s : State) (w : Nat) (i : Instr), decodeTableWord 32 w = some i →
    step (s.withFetchWord 32 w) = exec i { s with pend := some i, status := { s.status with busy := true } }

/-- 44_host_access R130: a CORE step reads no host input and cannot fault, and ends with PEND = none and BUSY = 0. -/
def Obligations.CoreStepCannotFault : Prop :=
  ∀ (i : Instr) (s : State), ∃ t, exec i s = .next t ∧ t.pend = none ∧ t.status.busy = false ∧
    t.status.fault = s.status.fault ∧ t.status.cause = s.status.cause ∧
    ∀ (es : List Event) (rs : List Word),
      exec i { s with schedule := es, reads := rs } = .next { t with schedule := es, reads := rs }

/-- Every step answers a next state: the model never stops (44_host_access R124, R130, R133; log 8). -/
def Obligations.EveryStepAnswersANextState : Prop := ∀ s : State, ∃ t, step s = .next t

/-- 44_host_access R140 under the model's fairness (log 3): once the outside events are done, one more step leaves nothing
pending, however many events came before, and the run is at its good end (R141) unless it has faulted. If no reset comes and
the run has not faulted, the command pending at the start is the first one performed: by a step that is its `exec`, in a state
that agrees with the start on the whole block, its operands included. -/
def Obligations.PendingCommandIsPerformedInTheEnd : Prop :=
  ∀ s : State, s.Coherent →
    ∃ t, Host.Core.run core (s.schedule.length + 1) s = .next t ∧
      t.pend = none ∧ (t.status.fault = true ∨ t.GoodEnd) ∧
      ((∀ e ∈ s.schedule, e ≠ .reset) → t.status.fault = false → ∀ i, s.pend = some i →
        ∃ u, (performed (s.schedule.length + 1) s).head? = some (i, u) ∧ SameBlock s u ∧
          step u = exec i { u with schedule := u.schedule.tail })

/-! ### Invariants and whole-machine rules -/

/-- The invariant of STATUS and PEND (10_state R23, R24; 44_host_access R130; 60_exceptions R156) holds after reset. -/
def Obligations.ResetStateIsCoherent : Prop := State.reset.Coherent

/-- Every step, of HOST, CORE or RESET, keeps the invariant of STATUS and PEND, from every state that has it. -/
def Obligations.EveryStepKeepsCoherence : Prop :=
  ∀ s t : State, s.Coherent → step s = .next t → t.Coherent

/-- 60_exceptions R156: no step raises INTERNAL, in any state, coherent or not. -/
def Obligations.InternalCauseIsNeverRaised : Prop :=
  ∀ s t : State, step s = .next t → s.status.cause ≠ .internal → t.status.cause ≠ .internal

/-- 60_exceptions R161: only reset leaves the fault state; any other step there changes nothing of the block, CAUSE
included. -/
def Obligations.OnlyResetLeavesTheFaultState : Prop :=
  ∀ s t : State, s.Coherent → s.status.fault = true → step s = .next t →
    (s.ResetNext → t.status.fault = false) ∧ (¬ s.ResetNext → SameBlock s t)

/-- 40_digest_state R79: what may change H. -/
def Obligations.DigestChangesOnlyByItsWriters : Prop :=
  ∀ s t : State, step s = .next t → t.h ≠ s.h →
    s.ResetNext ∨ s.nextCommand = some .init ∨ s.nextCommand = some .compress ∨ s.nextCommand = some .final ∨
    (s.status.busy = true ∧ s.status.fault = false ∧ t.status.fault = true)

/-- 10_state R18, R20: BLK and MSGLEN change only by reset and by an admitted host write to them while idle, which
replaces that one register; no command changes them. -/
def Obligations.BlockAndLengthChangeOnlyByHostWrites : Prop :=
  ∀ s t : State, step s = .next t →
    (t.blk ≠ s.blk → s.ResetNext ∨ (s.Idle ∧ ∃ (i : Fin 16) (v : Word),
      s.nextAccess = some { off := Reg.offset (.blk i), width := 4, dir := .write v } ∧ t.blk = s.blk.set i v)) ∧
    (t.msglenLo ≠ s.msglenLo → s.ResetNext ∨ (s.Idle ∧ ∃ v : Word,
      s.nextAccess = some { off := 0x008, width := 4, dir := .write v } ∧ t.msglenLo = v)) ∧
    (t.msglenHi ≠ s.msglenHi → s.ResetNext ∨ (s.Idle ∧ ∃ v : Word,
      s.nextAccess = some { off := 0x00C, width := 4, dir := .write v } ∧ t.msglenHi = v))

/-- 10_state R21, 60_exceptions R157: HEX changes only by reset, by ENCODE, and by a fault raised while BUSY = 1. -/
def Obligations.HexChangesOnlyByItsWriters : Prop :=
  ∀ s t : State, step s = .next t → t.hex ≠ s.hex →
    s.ResetNext ∨ (∃ c, s.nextCommand = some (.encode c)) ∨
    (s.status.busy = true ∧ s.status.fault = false ∧ t.status.fault = true)

/-- 10_state R25: DONE rises only when CORE completes FINAL and falls only when CORE completes INIT or by reset. -/
def Obligations.DoneChangesOnlyByFinalInitAndReset : Prop :=
  ∀ s t : State, step s = .next t → t.status.done ≠ s.status.done →
    (s.nextCommand = some .final ∧ t.status.done = true) ∨
    ((s.nextCommand = some .init ∨ s.ResetNext) ∧ t.status.done = false)

/-- 20_memory R53, 44_host_access R132, 70_reset R171: while a command is pending, a step that is neither CORE's nor a
reset either leaves the whole block as it is or enters the fault state. -/
def Obligations.OperandsAreStableWhileBusy : Prop :=
  ∀ s t : State, s.Coherent → s.pend ≠ none → step s = .next t → s.nextCommand = none → ¬ s.ResetNext →
    SameBlock s t ∨ (s.status.fault = false ∧ t.status.fault = true ∧ t.pend = none)

/-! ### The register window -/

/-- 20_memory R42: the register at each offset, and no register in the unmapped ranges. -/
def Obligations.AddressMapIsTheSpecTable : Prop :=
  regAt 0x000 = some .cmd ∧ regAt 0x004 = some .status ∧ regAt 0x008 = some .msglenLo ∧
  regAt 0x00C = some .msglenHi ∧ regAt 0x010 = some (.h 0) ∧ regAt 0x014 = some (.h 1) ∧
  regAt 0x018 = some (.h 2) ∧ regAt 0x01C = some (.h 3) ∧ regAt 0x020 = some (.h 4) ∧
  (∀ (i : Fin 16) (o : Offset), o.val = 0x040 + 4 * i.val → regAt o = some (.blk i)) ∧
  (∀ (k : Fin 10) (o : Offset), o.val = 0x080 + 4 * k.val → regAt o = some (.hex k)) ∧
  (∀ o : Offset, (0x024 ≤ o.val ∧ o.val ≤ 0x03F) ∨ 0x0A8 ≤ o.val → regAt o = none)

/-- 20_memory R43: a bus transaction in BASE..BASE + 0xFF is the access at off = addr − BASE; one outside changes nothing
of the block. The model's own: host addresses are natural numbers that do not wrap (log 4), and a transaction outside adds
nothing to the values the host has read and is consumed as any event is (log 14, 2). -/
def Obligations.BusTransactionReachesTheWindowOnlyAtBase : Prop :=
  ∀ (s : State) (addr width : Nat) (dir : Dir) (rest : List Event), s.schedule = .bus addr width dir :: rest →
    (∀ o : Offset, addr = Config.base + o.val →
      step s = step { s with schedule := .access { off := o, width := width, dir := dir } :: rest }) ∧
    (addr < Config.base ∨ Config.base + 0xFF < addr → step s = .next { s with schedule := rest })

/-- 44_host_access R125, R126: what a 32-bit read of each register returns, in every state, with no change of the block.
H and HEX while BUSY = 1: some value (R131). -/
def Obligations.ReadReturnsTheRegister : Prop :=
  ∀ (s : State) (r : Reg) (rest : List Event),
    s.schedule = .access { off := r.offset, width := 4, dir := .read } :: rest →
    ∃ t v, step s = .next t ∧ SameBlock s t ∧ t.schedule = rest ∧ t.reads = s.reads ++ [v] ∧
      (match r with
        | .cmd => v = 0x00000000
        | .status => v = (s.status.cause.code.setWidth 32 <<< 4) ||| (bitWord s.status.fault <<< 2)
            ||| (bitWord s.status.done <<< 1) ||| bitWord s.status.busy
        | .msglenLo => v = s.msglenLo
        | .msglenHi => v = s.msglenHi
        | .h i => s.status.busy = false → v = s.h.word i
        | .blk i => v = s.blk[i]
        | .hex k => s.status.busy = false → v = s.hex[k])

/-- 10_state R23, R27: the fields of the value STATUS reads as, and its reserved bits. -/
def Obligations.StatusReadsItsFieldsAndZeroElsewhere : Prop :=
  ∀ st : Status,
    (statusWord st).getLsbD 0 = st.busy ∧ (statusWord st).getLsbD 1 = st.done ∧ (statusWord st).getLsbD 2 = st.fault ∧
    (statusWord st).getLsbD 3 = false ∧ (statusWord st).extractLsb' 4 3 = st.cause.code ∧
    (statusWord st).extractLsb' 7 25 = 0

/-- 60_exceptions R149: the cause codes. -/
def Obligations.CauseCodesAreTheSpecTable : Prop :=
  Cause.noFault.code = 0 ∧ Cause.badAccess.code = 1 ∧ Cause.unmapped.code = 2 ∧ Cause.writeRo.code = 3 ∧
  Cause.busyWrite.code = 4 ∧ Cause.illegalCmd.code = 5 ∧ Cause.sequence.code = 6 ∧ Cause.internal.code = 7

/-- 44_host_access R127: a host write while idle to MSGLEN_LO, MSGLEN_HI or BLK_Wi stores its value and changes nothing
else. -/
def Obligations.HostWriteStoresItsRegisterOnly : Prop :=
  ∀ (s : State) (v : Word) (rest : List Event), s.Idle →
    (s.schedule = .access { off := 0x008, width := 4, dir := .write v } :: rest →
      step s = .next { s with msglenLo := v, schedule := rest }) ∧
    (s.schedule = .access { off := 0x00C, width := 4, dir := .write v } :: rest →
      step s = .next { s with msglenHi := v, schedule := rest }) ∧
    (∀ (i : Fin 16) (o : Offset), o.val = 0x040 + 4 * i.val →
      s.schedule = .access { off := o, width := 4, dir := .write v } :: rest →
      step s = .next { s with blk := s.blk.set i v, schedule := rest })

/-- 20_memory R47, 10_state R19: the word be32(b0, b1, b2, b3) written to BLK_Wi puts the four message bytes at block bytes
4i..4i+3, and leaves every other block byte. -/
def Obligations.BlockBytesAreBigEndian : Prop :=
  ∀ (s : State) (i : Fin 16) (b0 b1 b2 b3 : Byte) (rest : List Event), s.Idle →
    s.schedule = .access { off := Reg.offset (.blk i), width := 4, dir := .write (be32 b0 b1 b2 b3) } :: rest →
    ∃ t, step s = .next t ∧ ∀ j : Fin 64,
      t.blkByte j =
        (if j.val = 4 * i.val then b0 else if j.val = 4 * i.val + 1 then b1 else if j.val = 4 * i.val + 2 then b2
          else if j.val = 4 * i.val + 3 then b3 else s.blkByte j)

/-- 44_host_access R129: the three cases of a command write while idle. -/
def Obligations.CommandWriteFollowsItsThreeCases : Prop :=
  ∀ (s : State) (w : Word) (rest : List Event), s.Idle →
    s.schedule = .access { off := 0, width := 4, dir := .write w } :: rest →
    ∃ t, step s = .next t ∧ t.schedule = rest ∧
      (match decode w with
        | .illegal _ => FaultEntered .illegalCmd s t
        | .command i =>
          if (i = .compress ∨ i = .final) ∧ s.status.done = true then FaultEntered .sequence s t
          else t = { s with pend := some i, status := { s.status with busy := true }, schedule := rest })

/-! ### Faults -/

/-- 60_exceptions R157: every step that enters the fault state is a host access, and enters it by the one rule of fault
entry, whatever the cause: FAULT and CAUSE set, DONE, BLK and MSGLEN kept, a pending command abandoned, a value returned to
the host if it was a read; while BUSY = 1 the cause is BAD_ACCESS, UNMAPPED, WRITE_RO or BUSY_WRITE. H and HEX after an
abandoned command are unspecified: nothing is said of them. -/
def Obligations.EveryFaultIsEnteredByOneRule : Prop :=
  ∀ s t : State, s.status.fault = false → step s = .next t → t.status.fault = true →
    ∃ (a : Access) (c : Cause), s.nextAccess = some a ∧ c ≠ .noFault ∧ FaultEntered c s t ∧ ReturnsToHost a.dir s t ∧
      (s.status.busy = true → c = .badAccess ∨ c = .unmapped ∨ c = .writeRo ∨ c = .busyWrite) ∧
      (c = .illegalCmd ∨ c = .sequence → s.status.busy = false ∧ a.off = 0 ∧ a.dir ≠ .read)

/-- 60_exceptions R150: a wrong width or a misaligned offset, of a read or a write, busy or idle, raises BAD_ACCESS. -/
def Obligations.WrongWidthOrAlignmentRaisesBadAccess : Prop :=
  ∀ (s : State) (a : Access) (rest : List Event), s.status.fault = false → s.schedule = .access a :: rest →
    (a.width ≠ 4 ∨ a.off.val % 4 ≠ 0) →
    ∃ t, step s = .next t ∧ FaultEntered .badAccess s t ∧ t.status.cause.code = 1 ∧ ReturnsToHost a.dir s t

/-- 60_exceptions R151: an aligned 32-bit read or write at an unmapped offset, busy or idle, raises UNMAPPED. -/
def Obligations.UnmappedOffsetRaisesUnmapped : Prop :=
  ∀ (s : State) (o : Offset) (dir : Dir) (rest : List Event), s.status.fault = false →
    s.schedule = .access { off := o, width := 4, dir := dir } :: rest → o.val % 4 = 0 →
    ((0x024 ≤ o.val ∧ o.val ≤ 0x03F) ∨ 0x0A8 ≤ o.val) →
    ∃ t, step s = .next t ∧ FaultEntered .unmapped s t ∧ t.status.cause.code = 2 ∧ ReturnsToHost dir s t

/-- 60_exceptions R152: an aligned 32-bit write to STATUS, H0..H4 or HEX_W0..HEX_W9, busy or idle, raises WRITE_RO. -/
def Obligations.ReadOnlyWriteRaisesWriteRo : Prop :=
  ∀ (s : State) (o : Offset) (v : Word) (rest : List Event), s.status.fault = false →
    s.schedule = .access { off := o, width := 4, dir := .write v } :: rest → o.val % 4 = 0 →
    (o.val = 0x004 ∨ (0x010 ≤ o.val ∧ o.val ≤ 0x020) ∨ (0x080 ≤ o.val ∧ o.val ≤ 0x0A4)) →
    ∃ t, step s = .next t ∧ FaultEntered .writeRo s t ∧ t.status.cause.code = 3 ∧ t.reads = s.reads

/-- 60_exceptions R153: an aligned 32-bit write to CMD, MSGLEN_LO, MSGLEN_HI or BLK_Wi while BUSY = 1, whatever the value,
raises BUSY_WRITE. -/
def Obligations.WriteWhileBusyRaisesBusyWrite : Prop :=
  ∀ (s : State) (o : Offset) (v : Word) (rest : List Event), s.status.fault = false → s.status.busy = true →
    s.schedule = .access { off := o, width := 4, dir := .write v } :: rest → o.val % 4 = 0 →
    (o.val = 0x000 ∨ o.val = 0x008 ∨ o.val = 0x00C ∨ (0x040 ≤ o.val ∧ o.val ≤ 0x07C)) →
    ∃ t, step s = .next t ∧ FaultEntered .busyWrite s t ∧ t.status.cause.code = 4 ∧ t.reads = s.reads

/-- 60_exceptions R154: a write to CMD while idle of a word with OP 0x0 or 0x5..0xF, or RSV ≠ 0, or U = 1 with OP 1, 2 or 3
raises ILLEGAL_CMD. -/
def Obligations.IllegalWordRaisesIllegalCmd : Prop :=
  ∀ (s : State) (w : Word) (rest : List Event), s.Idle →
    s.schedule = .access { off := 0, width := 4, dir := .write w } :: rest →
    (w.toNat % 16 = 0 ∨ 5 ≤ w.toNat % 16 ∨ w.toNat / 32 ≠ 0 ∨
      (w.toNat / 16 % 2 = 1 ∧ (w.toNat % 16 = 1 ∨ w.toNat % 16 = 2 ∨ w.toNat % 16 = 3))) →
    ∃ t, step s = .next t ∧ FaultEntered .illegalCmd s t ∧ t.status.cause.code = 5

/-- 60_exceptions R155: COMPRESS or FINAL written while idle with DONE = 1 raises SEQUENCE; INIT and ENCODE never do. -/
def Obligations.CompressionAfterFinalRaisesSequence : Prop :=
  ∀ (s : State) (w : Word) (rest : List Event), s.Idle →
    s.schedule = .access { off := 0, width := 4, dir := .write w } :: rest →
    ∃ t, step s = .next t ∧
      (s.status.done = true → w = 0x00000002 ∨ w = 0x00000003 →
        FaultEntered .sequence s t ∧ t.status.cause.code = 6) ∧
      (w = 0x00000001 ∨ w = 0x00000004 ∨ w = 0x00000014 → t.status.fault = false)

/-- 60_exceptions R158 with 44_host_access R124: of the causes an access meets, CAUSE records the first in the order
BAD_ACCESS, UNMAPPED, WRITE_RO, BUSY_WRITE, ILLEGAL_CMD, SEQUENCE; an access that meets none raises no fault. Each
condition stands alone, as the rule of its cause states it. -/
def Obligations.CauseIsTheFirstInTheOrderOfChecks : Prop :=
  ∀ (s : State) (a : Access) (rest : List Event), s.status.fault = false → s.status.cause = .noFault →
    s.schedule = .access a :: rest →
    ∃ t, step s = .next t ∧
      t.status.cause =
        (((([(Cause.badAccess, decide (a.width ≠ 4 ∨ a.off.val % 4 ≠ 0)),
          (Cause.unmapped, decide ((0x024 ≤ a.off.val ∧ a.off.val ≤ 0x03F) ∨ 0x0A8 ≤ a.off.val)),
          (Cause.writeRo, decide (a.dir ≠ .read ∧ ((0x004 ≤ a.off.val ∧ a.off.val < 0x008) ∨
            (0x010 ≤ a.off.val ∧ a.off.val < 0x024) ∨ (0x080 ≤ a.off.val ∧ a.off.val < 0x0A8)))),
          (Cause.busyWrite, decide (a.dir ≠ .read ∧ s.status.busy = true)),
          (Cause.illegalCmd, decide (a.off.val < 0x004 ∧ a.dir ≠ .read ∧ a.dir ≠ .write 0x00000001 ∧
            a.dir ≠ .write 0x00000002 ∧ a.dir ≠ .write 0x00000003 ∧ a.dir ≠ .write 0x00000004 ∧
            a.dir ≠ .write 0x00000014)),
          (Cause.sequence, decide (a.off.val < 0x004 ∧ s.status.done = true ∧
            (a.dir = .write 0x00000002 ∨ a.dir = .write 0x00000003)))] : List (Cause × Bool)).filter
              (fun p => p.2)).map (fun p => p.1)).head?.getD .noFault) ∧
      (t.status.fault = true ↔ t.status.cause ≠ .noFault)

/-- 44_host_access R133: in the fault state a write does nothing at all, a read of an admitted mapped offset returns the
register, and any other read returns some value; nothing of the block changes. -/
def Obligations.FaultStateAccessChangesNothing : Prop :=
  ∀ (s : State) (a : Access) (rest : List Event), s.Coherent → s.status.fault = true →
    s.schedule = .access a :: rest →
    (∀ v, a.dir = .write v → step s = .next { s with schedule := rest }) ∧
    (a.dir = .read → ∃ t v, step s = .next t ∧ SameBlock s t ∧ t.reads = s.reads ++ [v] ∧
      ∀ r : Reg, a.width = 4 → a.off = r.offset → v = regValue s r)

/-! ### INIT -/

/-- 40_digest_state R78: the CORE step of INIT, in every state, and all it leaves unchanged. -/
def Obligations.InitLoadsTheInitialValues : Prop :=
  ∀ s : State, exec .init s = .next { s with
    h := { h0 := 0x67452301, h1 := 0xEFCDAB89, h2 := 0x98BADCFE, h3 := 0x10325476, h4 := 0xC3D2E1F0 }
    status := { s.status with done := false, busy := false }
    pend := none }

/-! ### COMPRESS -/

/-- 00_scope R11, 41_block_compressor R81: `rotl` moves bit i to bit (i + n) mod 32, for every amount 1..31. -/
def Obligations.RotlMovesEveryBit : Prop :=
  ∀ (x : Word) (n i : Nat), 1 ≤ n → n ≤ 31 → i < 32 → (rotl x n).getLsbD ((i + n) % 32) = x.getLsbD i

/-- 41_block_compressor R87: the round functions, bit by bit: choice, parity, majority, parity. -/
def Obligations.RoundFunctionsBitByBit : Prop :=
  ∀ (b c d : Word) (i : Nat), i < 32 →
    (roundFunction 0 b c d).getLsbD i = (if b.getLsbD i then c.getLsbD i else d.getLsbD i) ∧
    (roundFunction 1 b c d).getLsbD i = ((b.getLsbD i ^^ c.getLsbD i) ^^ d.getLsbD i) ∧
    (roundFunction 2 b c d).getLsbD i =
      decide (2 ≤ (b.getLsbD i).toNat + (c.getLsbD i).toNat + (d.getLsbD i).toNat) ∧
    (roundFunction 3 b c d).getLsbD i = ((b.getLsbD i ^^ c.getLsbD i) ^^ d.getLsbD i)

/-- 41_block_compressor R83–R91, R94: whatever sequences W and V meet the schedule's recurrence and the rounds', started
from the block buffer and the digest, COMPRESS adds V after 80 rounds into H, and changes nothing else but PEND and BUSY.
The hypotheses define W and V and can always be met. -/
def Obligations.CompressFollowsTheRoundRecurrence : Prop :=
  ∀ (s : State) (W : Nat → Word) (V : Nat → WorkingVars),
    (∀ i : Fin 16, W i.val = s.blk[i]) →
    (∀ t, 16 ≤ t → t ≤ 79 → W t = rotl (W (t - 3) ^^^ W (t - 8) ^^^ W (t - 14) ^^^ W (t - 16)) 1) →
    V 0 = { a := s.h.h0, b := s.h.h1, c := s.h.h2, d := s.h.h3, e := s.h.h4 } →
    (∀ t, t ≤ 79 → V (t + 1) =
      { a := rotl (V t).a 5
          + (if t ≤ 19 then ((V t).b &&& (V t).c) ||| (~~~(V t).b &&& (V t).d)
            else if t ≤ 39 then (V t).b ^^^ (V t).c ^^^ (V t).d
            else if t ≤ 59 then ((V t).b &&& (V t).c) ||| ((V t).b &&& (V t).d) ||| ((V t).c &&& (V t).d)
            else (V t).b ^^^ (V t).c ^^^ (V t).d)
          + (V t).e
          + (if t ≤ 19 then 0x5A827999 else if t ≤ 39 then 0x6ED9EBA1 else if t ≤ 59 then 0x8F1BBCDC else 0xCA62C1D6)
          + W t
        b := (V t).a
        c := rotl (V t).b 30
        d := (V t).c
        e := (V t).d }) →
    exec .compress s = .next { s with
      h := { h0 := s.h.h0 + (V 80).a, h1 := s.h.h1 + (V 80).b, h2 := s.h.h2 + (V 80).c,
             h3 := s.h.h3 + (V 80).d, h4 := s.h.h4 + (V 80).e }
      status := { s.status with busy := false }
      pend := none }

/-- 41_block_compressor R94: COMPRESS completes in every state with H ← Compress(H, BLKBYTES), BLKBYTES the sixty-four block
bytes of R19, and changes nothing else but PEND and BUSY. -/
def Obligations.CompressTakesTheBlockBytes : Prop :=
  ∀ s : State, exec .compress s = .next { s with
    h := compressBlock s.h (List.ofFn s.blkByte)
    status := { s.status with busy := false }
    pend := none }

/-! ### FINAL and padding -/

/-- 42_padding_framing R110: FINAL completes for every MSGLEN and every state, with the tail's r bytes, the 0x80 byte, the
zeros and the length field in one block when r ≤ 55 and two when r ≥ 56; DONE ← 1; nothing else changes but PEND, BUSY. -/
def Obligations.FinalCompressesTheOneOrTwoPaddedBlocks : Prop :=
  ∀ s : State,
    let L := 2 ^ 32 * s.msglenHi.toNat + s.msglenLo.toNat
    let r := L % 64
    let z := if r ≤ 55 then 55 - r else 119 - r
    let P := (List.ofFn s.blkByte).take r ++ [0x80] ++ List.replicate z 0x00 ++ be64 (BitVec.ofNat 64 (8 * L))
    exec .final s = .next { s with
      h := if r ≤ 55 then compressBlock s.h P
        else compressBlock (compressBlock s.h (P.take 64)) (P.drop 64)
      status := { s.status with done := true, busy := false }
      pend := none }

/-- 42_padding_framing R101, R102, R103: the length of the padded tail, and every byte of it. -/
def Obligations.PaddedTailLayout : Prop :=
  ∀ (t : List Byte) (L : Nat), t.length ≤ 63 →
    (padTail t L).length = (if t.length ≤ 55 then 64 else 128) ∧
    ∀ j, j < (padTail t L).length →
      (padTail t L)[j]? = some
        (if j < t.length then t.getD j 0x00
        else if j = t.length then 0x80
        else if j < (padTail t L).length - 8 then 0x00
        else BitVec.ofNat 8 (8 * L % 2 ^ 64 / 256 ^ ((padTail t L).length - 1 - j)))

/-- 42_padding_framing R111: block bytes r..63 do not enter the result of FINAL. -/
def Obligations.FinalIgnoresTheUnusedBlockBytes : Prop :=
  ∀ s u : State, s.h = u.h → s.msglenLo = u.msglenLo → s.msglenHi = u.msglenHi →
    (∀ j : Fin 64, j.val < s.msglen % 64 → s.blkByte j = u.blkByte j) →
    ∃ t v, exec .final s = .next t ∧ exec .final u = .next v ∧ t.h = v.h

/-- 42_padding_framing R105 (derived there): the framing identity. -/
def Obligations.FramingIdentity : Prop :=
  ∀ m : List Byte,
    padMsg m = slice m 0 (64 * (m.length / 64)) ++ padTail (slice m (64 * (m.length / 64)) m.length) m.length

/-- 42_padding_framing R106 (derived there): the number of padded blocks is ceil((L + 9) / 64), the whole blocks of the
message and one or two more. -/
def Obligations.PaddedBlockCount : Prop :=
  ∀ m : List Byte,
    (padMsg m).length = 64 * ((m.length + 9 + 63) / 64) ∧
    (m.length + 9 + 63) / 64 = m.length / 64 + (if m.length % 64 ≤ 55 then 1 else 2)

/-- 42_padding_framing R109 (derived there): the streaming path and the in-memory path give one digest, for every
message. -/
def Obligations.StreamEqualsSha1 : Prop := ∀ m : List Byte, stream m = sha1 m

/-- 42_padding_framing R114 (derived there): from H = IV, DONE = 0 and no fault, along every run without a reset, whatever
the host's other accesses and however HOST and CORE interleave, if the commands performed meet the host's duty for m and
the run has not faulted, then H = SHA1(m) and DONE = 1. -/
def Obligations.HostDutyGivesTheSha1Digest : Prop :=
  ∀ (m : List Byte) (k : Nat) (s t : State),
    s.h = { h0 := 0x67452301, h1 := 0xEFCDAB89, h2 := 0x98BADCFE, h3 := 0x10325476, h4 := 0xC3D2E1F0 } →
    s.status.done = false → s.status.fault = false → (∀ e ∈ s.schedule, e ≠ .reset) →
    Host.Core.run core k s = .next t → MeetsDuty m (performed k s) → t.status.fault = false →
    t.h = sha1 m ∧ t.status.done = true

/-! ### ENCODE -/

/-- 43_output_encoder R117, R118, R121: ENCODE completes in every state; character 8i + p of HEX is the digit, in the
letter case, of nibble p of H[i] counted from the most significant; nothing else changes but PEND and BUSY. -/
def Obligations.EncodeRendersEveryNibble : Prop :=
  ∀ (s : State) (case : LetterCase), ∃ t, exec (.encode case) s = .next t ∧
    t = { s with hex := t.hex, status := { s.status with busy := false }, pend := none } ∧
    ∀ (i : Fin 5) (p : Fin 8),
      let v := (s.h.word i).toNat / 16 ^ (7 - p.val) % 16
      t.hexChar ⟨8 * i.val + p.val, Nat.lt_of_lt_of_le (Nat.add_lt_add_left p.isLt _) (Nat.mul_le_mul_left 8 i.isLt)⟩ =
        BitVec.ofNat 8 (if v ≤ 9 then 0x30 + v else (match case with
          | .lower => 0x61
          | .upper => 0x41) + (v - 10))

/-- 43_output_encoder R120 (derived there): the upper-case rendering is the lower-case one with 0x20 taken from its letters.
-/
def Obligations.UpperCaseIsLowerCaseMinus0x20OnLetters : Prop :=
  ∀ s : State, ∃ l u, exec (.encode .lower) s = .next l ∧ exec (.encode .upper) s = .next u ∧
    ∀ j : Fin 40, u.hexChar j = (if (l.hexChar j).toNat ≤ 0x39 then l.hexChar j else l.hexChar j - 0x20)

/-- 43_output_encoder R122: ENCODE changes nothing but HEX (and ends the command: PEND, BUSY); a second ENCODE, of either
case, gives what it would have given first, so two of one case give the same HEX and the last one's case stays. -/
def Obligations.EncodeIsRepeatable : Prop :=
  ∀ (s : State) (c d : LetterCase), ∃ t u v, exec (.encode c) s = .next t ∧ exec (.encode d) t = .next u ∧
    exec (.encode d) s = .next v ∧
    t = { s with hex := t.hex, status := { s.status with busy := false }, pend := none } ∧ u.hex = v.hex

/-! ### Frames of the commands -/

/-- 30_encoding R67 (the table of what each command writes): no command changes BLK, MSGLEN, FAULT or CAUSE; ENCODE leaves H
and DONE; COMPRESS leaves DONE and HEX; INIT and FINAL leave HEX. -/
def Obligations.CommandsChangeOnlyWhatTheTableSays : Prop :=
  ∀ (i : Instr) (s t : State), exec i s = .next t →
    t.blk = s.blk ∧ t.msglenLo = s.msglenLo ∧ t.msglenHi = s.msglenHi ∧
    t.status.fault = s.status.fault ∧ t.status.cause = s.status.cause ∧
    t.schedule = s.schedule ∧ t.reads = s.reads ∧ t.draws = s.draws ∧
    ((∃ c, i = .encode c) → t.h = s.h ∧ t.status.done = s.status.done) ∧
    (i = .compress → t.status.done = s.status.done) ∧
    ((i = .init ∨ i = .compress ∨ i = .final) → t.hex = s.hex)
end

