-- ==== Sys2Proof/Laws/Words.lean ====
section
/-! SUPPORT. Byte packing: a word is the big-endian word of its bytes, and the block buffer's words are the words of its
byte sequence. -/

namespace Sys2Proof.Machine

/-- Bit i of be32: bytes in order, the first one most significant (00_scope R12). -/
theorem be32_getLsbD (b0 b1 b2 b3 : Byte) (i : Nat) :
    (be32 b0 b1 b2 b3).getLsbD i =
      if i < 8 then b3.getLsbD i else if i < 16 then b2.getLsbD (i - 8)
      else if i < 24 then b1.getLsbD (i - 16) else b0.getLsbD (i - 24) := by
  unfold be32
  simp only [BitVec.getLsbD_append]
  repeat' split
  all_goals first | rfl | omega

/-- A word is be32 of its four bytes. -/
@[simp] theorem be32_bytes (w : Word) :
    be32 (w.extractLsb' 24 8) (w.extractLsb' 16 8) (w.extractLsb' 8 8) (w.extractLsb' 0 8) = w := by
  apply BitVec.eq_of_getLsbD_eq
  intro i hi
  rw [be32_getLsbD]
  simp only [BitVec.getLsbD_extractLsb']
  repeat' split
  all_goals first
    | omega
    | (rw [decide_eq_true (by omega), Bool.true_and]; congr 1; omega)

/-- Byte j of be32. -/
theorem byteOfWord_be32 (b0 b1 b2 b3 : Byte) :
    byteOfWord (be32 b0 b1 b2 b3) 0 = b0 ∧ byteOfWord (be32 b0 b1 b2 b3) 1 = b1 ∧
    byteOfWord (be32 b0 b1 b2 b3) 2 = b2 ∧ byteOfWord (be32 b0 b1 b2 b3) 3 = b3 := by
  refine ⟨?_, ?_, ?_, ?_⟩ <;>
  · apply BitVec.eq_of_getLsbD_eq
    intro i hi
    simp only [byteOfWord, BitVec.getLsbD_extractLsb', be32_getLsbD]
    repeat' split
    all_goals first | omega | (simp only [hi, decide_true, Bool.true_and]; congr 1; omega)

/-- The words of a sequence of words' bytes are those words (20_memory R48). -/
@[simp] theorem wordsOf_flatMap_bytes (ws : List Word) : wordsOf (ws.flatMap bytesBe32) = ws := by
  induction ws with
  | nil => rfl
  | cons w ws ih => simp only [List.flatMap_cons, bytesBe32, List.cons_append, List.nil_append, wordsOf, be32_bytes, ih]

theorem length_flatMap_bytes (ws : List Word) : (ws.flatMap bytesBe32).length = 4 * ws.length := by
  induction ws with
  | nil => rfl
  | cons w ws ih => simp only [List.flatMap_cons, List.length_append, List.length_cons, ih, bytesBe32]; simp; omega

/-- The block buffer is 64 bytes (10_state R18, R19). -/
@[simp] theorem State.blkBytes_length (s : State) : s.blkBytes.length = 64 := by
  rw [State.blkBytes, length_flatMap_bytes]; simp

/-- The words of the block are the BLK registers, with no byte swap (20_memory R48). -/
@[simp] theorem State.wordsOf_blkBytes (s : State) : wordsOf s.blkBytes = s.blk.toList := by simp [State.blkBytes]

@[simp] theorem be64_length (v : BitVec 64) : (be64 v).length = 8 := rfl

/-- The word count of a byte sequence whose length is a multiple of four. -/
theorem wordsOf_length : ∀ (n : Nat) (bs : List Byte), bs.length = 4 * n → (wordsOf bs).length = n
  | 0, [], _ => rfl
  | n + 1, b0 :: b1 :: b2 :: b3 :: rest, h => by
    simp only [wordsOf, List.length_cons]
    rw [wordsOf_length n rest (by simp at h; omega)]
  | n + 1, [], h => by simp at h
  | n + 1, [_], h => by simp at h; omega
  | n + 1, [_, _], h => by simp at h; omega
  | n + 1, [_, _, _], h => by simp at h; omega

/-- Byte 4i + j of the concatenated bytes of words is byte j of word i (10_state R19). -/
theorem flatMap_bytes_getElem? (ws : List Word) (i j : Nat) (hj : j < 4) :
    (ws.flatMap bytesBe32)[4 * i + j]? = ws[i]?.map fun w => byteOfWord w j := by
  induction ws generalizing i with
  | nil => simp
  | cons w ws ih =>
    cases i with
    | zero =>
      have : j = 0 ∨ j = 1 ∨ j = 2 ∨ j = 3 := by omega
      rcases this with rfl | rfl | rfl | rfl <;> simp [bytesBe32, byteOfWord]
    | succ i =>
      rw [List.flatMap_cons, List.getElem?_append_right (by simp [bytesBe32]; omega)]
      have : 4 * (i + 1) + j - (bytesBe32 w).length = 4 * i + j := by simp [bytesBe32]; omega
      rw [this, ih]
      simp

/-- BLKBYTES is the sequence of the block bytes BLKB(j) (10_state R19). -/
theorem State.blkBytes_eq_ofFn (s : State) : s.blkBytes = List.ofFn s.blkByte := by
  apply List.ext_getElem?
  intro n
  by_cases hn : n < 64
  · have h := flatMap_bytes_getElem? s.blk.toList (n / 4) (n % 4) (Nat.mod_lt _ (by decide))
    rw [Nat.div_add_mod] at h
    have h4 : n / 4 < 16 := by omega
    rw [State.blkBytes, h, List.getElem?_ofFn, dif_pos hn]
    simp [State.blkByte, h4]
  · rw [List.getElem?_eq_none (by simp; omega), List.getElem?_eq_none (by simp; omega)]

end Sys2Proof.Machine
end

