-- ==== Sys2Proof/Laws/Compressor.lean ====
section
/-! SUPPORT. The message schedule has 80 words and meets its recurrence; the rounds' recurrence; Compress unfolded once. -/

namespace Sys2Proof.Machine

@[simp] theorem expandSchedule_length (n : Nat) (W : List Word) : (expandSchedule n W).length = W.length + n := by
  induction n generalizing W with
  | zero => rfl
  | succ n ih => simp [expandSchedule, ih]; omega

/-- Expansion keeps the words already there. -/
theorem expandSchedule_getD_of_lt (n : Nat) (W : List Word) (i : Nat) (hi : i < W.length) :
    (expandSchedule n W).getD i 0 = W.getD i 0 := by
  induction n generalizing W with
  | zero => rfl
  | succ n ih =>
    rw [expandSchedule, ih _ (by simp; omega)]
    simp [List.getD, List.getElem?_append_left hi]

/-- Every added word is the XOR of the four earlier ones, rotated (41_block_compressor R84). -/
theorem expandSchedule_recurrence (n : Nat) (W : List Word) (t : Nat) (h16 : 16 ≤ W.length) (ht : W.length ≤ t)
    (hn : t < W.length + n) :
    (expandSchedule n W).getD t 0 =
      rotl ((expandSchedule n W).getD (t - 3) 0 ^^^ (expandSchedule n W).getD (t - 8) 0
        ^^^ (expandSchedule n W).getD (t - 14) 0 ^^^ (expandSchedule n W).getD (t - 16) 0) 1 := by
  induction n generalizing W with
  | zero => omega
  | succ n ih =>
    rw [expandSchedule]
    by_cases h : t = W.length
    · subst h
      have keep : ∀ j, 3 ≤ j → j ≤ 16 →
          (expandSchedule n (W ++ [nextScheduleWord W])).getD (W.length - j) 0 = W.getD (W.length - j) 0 := by
        intro j h3 hj
        rw [expandSchedule_getD_of_lt _ _ _ (by rw [List.length_append]; omega), List.getD, List.getD,
          List.getElem?_append_left (by omega)]
      rw [keep 3 (by omega) (by omega), keep 8 (by omega) (by omega), keep 14 (by omega) (by omega),
        keep 16 (by omega) (by omega), expandSchedule_getD_of_lt _ _ _ (by simp)]
      simp [List.getD, nextScheduleWord]
    · exact ih _ (by simp; omega) (by simp; omega) (by simp; omega)

/-- The schedule of a block is the expansion of its words. -/
theorem messageSchedule_eq (B : List Byte) (h : B.length = 64) : messageSchedule B = expandSchedule 64 (wordsOf B) := by
  have hl := wordsOf_length 16 B (by omega)
  unfold messageSchedule
  split
  · next h0 => simp [h0] at hl
  · next h0 => rw [h0]

/-- A schedule always has exactly 80 words (41_block_compressor R85). -/
theorem messageSchedule_length (B : List Byte) (h : B.length = 64) : (messageSchedule B).length = 80 := by
  simp [messageSchedule_eq B h, wordsOf_length 16 B (by omega)]

/-- W[0..15] are the block's words (41_block_compressor R83). -/
theorem messageSchedule_first (B : List Byte) (h : B.length = 64) (i : Nat) (hi : i < 16) :
    (messageSchedule B).getD i 0 = (wordsOf B).getD i 0 := by
  rw [messageSchedule_eq B h]
  exact expandSchedule_getD_of_lt _ _ _ (by rw [wordsOf_length 16 B (by omega)]; exact hi)

/-- W[16..79] meet the recurrence (41_block_compressor R84). -/
theorem messageSchedule_recurrence (B : List Byte) (h : B.length = 64) (t : Nat) (h16 : 16 ≤ t) (h80 : t < 80) :
    (messageSchedule B).getD t 0 =
      rotl ((messageSchedule B).getD (t - 3) 0 ^^^ (messageSchedule B).getD (t - 8) 0
        ^^^ (messageSchedule B).getD (t - 14) 0 ^^^ (messageSchedule B).getD (t - 16) 0) 1 := by
  have hl := wordsOf_length 16 B (by omega)
  rw [messageSchedule_eq B h]
  exact expandSchedule_recurrence 64 (wordsOf B) t (by omega) (by omega) (by omega)

/-- A quadrant is t / 20 (41_block_compressor R86). -/
theorem quadrant_val (t : Nat) (h : t < 80) : (quadrant t).val = t / 20 := by
  unfold quadrant; repeat' split
  all_goals simp
  all_goals omega

@[simp] theorem rounds_nil (t : Nat) (v : WorkingVars) : rounds t [] v = v := rfl

theorem rounds_cons (t : Nat) (w : Word) (ws : List Word) (v : WorkingVars) :
    rounds t (w :: ws) v = rounds (t + 1) ws (shaRound t w v) := rfl

/-- Rounds over a concatenation. -/
theorem rounds_append (t : Nat) (a b : List Word) (v : WorkingVars) :
    rounds t (a ++ b) v = rounds (t + a.length) b (rounds t a v) := by
  induction a generalizing t v with
  | nil => rfl
  | cons w a ih =>
    rw [List.cons_append, rounds_cons, ih, rounds_cons, List.length_cons]
    congr 1; omega

/-- One more round over the first n + 1 words (41_block_compressor R90 step 4). -/
theorem rounds_take_succ (W : List Word) (v : WorkingVars) (n : Nat) (h : n < W.length) :
    rounds 0 (W.take (n + 1)) v = shaRound n (W.getD n 0) (rounds 0 (W.take n) v) := by
  rw [List.take_succ_eq_append_getElem h, rounds_append, rounds_cons, rounds_nil, List.length_take,
    Nat.min_eq_left (by omega), Nat.zero_add]
  simp [List.getD, h]

/-- Compress unfolded once (41_block_compressor R90). -/
theorem compressBlock_eq (H : Digest) (B : List Byte) :
    compressBlock H B = foldVars H (rounds 0 (messageSchedule B) (seed H)) := by
  unfold compressBlock
  rfl

end Sys2Proof.Machine
end

