-- ==== Sys2Proof/Laws/Decode.lean ====
section
/-! SUPPORT. The decoder in terms of the word's number, and the encoder's words. -/

namespace Sys2Proof

theorem fieldOp_eq_iff (w : Word) (k : Nat) (hk : k < 16) : fieldOp w = BitVec.ofNat 4 k ↔ w.toNat % 16 = k := by
  rw [← BitVec.toNat_inj]
  simp [fieldOp, BitVec.extractLsb'_toNat, Nat.mod_eq_of_lt hk]

theorem fieldRsv_eq_zero_iff (w : Word) : fieldRsv w = 0 ↔ w.toNat / 32 = 0 := by
  rw [← BitVec.toNat_inj]
  have := w.isLt
  simp [fieldRsv, BitVec.extractLsb'_toNat, Nat.shiftRight_eq_div_pow]
  omega

theorem fieldU_eq_iff (w : Word) (k : Nat) (hk : k < 2) : fieldU w = BitVec.ofNat 1 k ↔ w.toNat / 16 % 2 = k := by
  rw [← BitVec.toNat_inj]
  simp [fieldU, BitVec.extractLsb'_toNat, Nat.shiftRight_eq_div_pow, Nat.mod_eq_of_lt hk]

theorem encode_init : encode .init = 0x00000001 := by decide
theorem encode_compress : encode .compress = 0x00000002 := by decide
theorem encode_final : encode .final = 0x00000003 := by decide
theorem encode_lower : encode (.encode .lower) = 0x00000004 := by decide
theorem encode_upper : encode (.encode .upper) = 0x00000014 := by decide

/-- `decode` by the number of the word: the four OPs below 32 whose U is allowed (30_encoding R65). -/
theorem decode_toNat (w : Word) :
    decode w =
      if w.toNat / 32 ≠ 0 then .illegal .reservedBits
      else if w.toNat % 16 = 1 then decodePlain (fieldU w) .init
      else if w.toNat % 16 = 2 then decodePlain (fieldU w) .compress
      else if w.toNat % 16 = 3 then decodePlain (fieldU w) .final
      else if w.toNat % 16 = 4 then .command (.encode (caseOfU (fieldU w)))
      else .illegal .unassignedOp := by
  have h1 := fieldOp_eq_iff w 1 (by decide)
  have h2 := fieldOp_eq_iff w 2 (by decide)
  have h3 := fieldOp_eq_iff w 3 (by decide)
  have h4 := fieldOp_eq_iff w 4 (by decide)
  have hr := fieldRsv_eq_zero_iff w
  simp only [decode, ne_eq, hr]
  simp only [← h1, ← h2, ← h3, ← h4]
  rfl

end Sys2Proof
end

