-- ==== Sys2Proof/Laws/Encoder.lean ====
section
/-! SUPPORT. Characters of the rendering and of HEX. -/

namespace Sys2Proof.Machine

@[simp] theorem hexDigits_length (w : Word) (c : LetterCase) : (hexDigits w c).length = 8 := by simp [hexDigits]

@[simp] theorem renderDigest_length (H : Digest) (c : LetterCase) : (renderDigest H c).length = 40 := by
  simp [renderDigest, Digest.toList]

/-- Character 8i + p of a rendering is nibble p of word i (43_output_encoder R118). -/
theorem renderDigest_getD (H : Digest) (c : LetterCase) (i : Fin 5) (p : Nat) (hp : p < 8) :
    (renderDigest H c).getD (8 * i.val + p) 0 = hexDigit (nibble (H.word i) p) c := by
  have key : ∀ (ws : List Word) (k : Nat), (ws.flatMap fun w => hexDigits w c)[8 * k + p]? =
      ws[k]?.map fun w => hexDigit (nibble w p) c := by
    intro ws
    induction ws with
    | nil => intro k; simp
    | cons w ws ih =>
      intro k
      cases k with
      | zero => rw [List.flatMap_cons, List.getElem?_append_left (by simp; omega)]; simp [hexDigits, hp]
      | succ k =>
        rw [List.flatMap_cons, List.getElem?_append_right (by simp; omega)]
        have : 8 * (k + 1) + p - (hexDigits w c).length = 8 * k + p := by simp; omega
        rw [this, ih]
        simp
  rw [List.getD, renderDigest, key]
  match i with
  | 0 => rfl
  | 1 => rfl
  | 2 => rfl
  | 3 => rfl
  | 4 => rfl

/-- Character j of the packed HEX words is character j of the rendering (10_state R21, 20_memory R50). -/
theorem hexChar_hexWords (s : State) (C : List Byte) (h : s.hex = hexWords C) (j : Fin 40) :
    s.hexChar j = C.getD j.val 0 := by
  unfold State.hexChar
  have hk : s.hex[j.val / 4]'(by omega) = packChars C (j.val / 4) := by simp [h, hexWords]
  rw [hk, packChars]
  obtain ⟨e0, e1, e2, e3⟩ := byteOfWord_be32 (C.getD (4 * (j.val / 4)) 0) (C.getD (4 * (j.val / 4) + 1) 0)
    (C.getD (4 * (j.val / 4) + 2) 0) (C.getD (4 * (j.val / 4) + 3) 0)
  have hm : j.val % 4 = 0 ∨ j.val % 4 = 1 ∨ j.val % 4 = 2 ∨ j.val % 4 = 3 := by omega
  rcases hm with h' | h' | h' | h' <;> simp only [h', e0, e1, e2, e3] <;> congr 1 <;> omega

end Sys2Proof.Machine
end

