-- ==== Sys2Proof/Laws/State.lean ====
section
/-! SUPPORT. One lemma per field per named update of the state, each true by unfolding the update once.
The parentheses of `(rfl)` make simp rewrite with the lemma: the kernel then never compares the states themselves, which may
hold a whole compression. -/

namespace Sys2Proof.Machine

variable (s : State)

/-! ### setBusy -/

@[simp] theorem State.setBusy_h (b : Bool) : (s.setBusy b).h = s.h := (rfl)
@[simp] theorem State.setBusy_blk (b : Bool) : (s.setBusy b).blk = s.blk := (rfl)
@[simp] theorem State.setBusy_msglenLo (b : Bool) : (s.setBusy b).msglenLo = s.msglenLo := (rfl)
@[simp] theorem State.setBusy_msglenHi (b : Bool) : (s.setBusy b).msglenHi = s.msglenHi := (rfl)
@[simp] theorem State.setBusy_hex (b : Bool) : (s.setBusy b).hex = s.hex := (rfl)
@[simp] theorem State.setBusy_status (b : Bool) : (s.setBusy b).status = { s.status with busy := b } := (rfl)
@[simp] theorem State.setBusy_pend (b : Bool) : (s.setBusy b).pend = s.pend := (rfl)
@[simp] theorem State.setBusy_schedule (b : Bool) : (s.setBusy b).schedule = s.schedule := (rfl)
@[simp] theorem State.setBusy_reads (b : Bool) : (s.setBusy b).reads = s.reads := (rfl)
@[simp] theorem State.setBusy_draws (b : Bool) : (s.setBusy b).draws = s.draws := (rfl)

/-! ### setDone -/

@[simp] theorem State.setDone_h (b : Bool) : (s.setDone b).h = s.h := (rfl)
@[simp] theorem State.setDone_blk (b : Bool) : (s.setDone b).blk = s.blk := (rfl)
@[simp] theorem State.setDone_msglenLo (b : Bool) : (s.setDone b).msglenLo = s.msglenLo := (rfl)
@[simp] theorem State.setDone_msglenHi (b : Bool) : (s.setDone b).msglenHi = s.msglenHi := (rfl)
@[simp] theorem State.setDone_hex (b : Bool) : (s.setDone b).hex = s.hex := (rfl)
@[simp] theorem State.setDone_status (b : Bool) : (s.setDone b).status = { s.status with done := b } := (rfl)
@[simp] theorem State.setDone_pend (b : Bool) : (s.setDone b).pend = s.pend := (rfl)
@[simp] theorem State.setDone_schedule (b : Bool) : (s.setDone b).schedule = s.schedule := (rfl)
@[simp] theorem State.setDone_reads (b : Bool) : (s.setDone b).reads = s.reads := (rfl)
@[simp] theorem State.setDone_draws (b : Bool) : (s.setDone b).draws = s.draws := (rfl)

/-! ### setFault -/

@[simp] theorem State.setFault_h (c : Cause) : (s.setFault c).h = s.h := (rfl)
@[simp] theorem State.setFault_blk (c : Cause) : (s.setFault c).blk = s.blk := (rfl)
@[simp] theorem State.setFault_msglenLo (c : Cause) : (s.setFault c).msglenLo = s.msglenLo := (rfl)
@[simp] theorem State.setFault_msglenHi (c : Cause) : (s.setFault c).msglenHi = s.msglenHi := (rfl)
@[simp] theorem State.setFault_hex (c : Cause) : (s.setFault c).hex = s.hex := (rfl)
@[simp] theorem State.setFault_status (c : Cause) : (s.setFault c).status = { s.status with fault := true, cause := c } := (rfl)
@[simp] theorem State.setFault_pend (c : Cause) : (s.setFault c).pend = s.pend := (rfl)
@[simp] theorem State.setFault_schedule (c : Cause) : (s.setFault c).schedule = s.schedule := (rfl)
@[simp] theorem State.setFault_reads (c : Cause) : (s.setFault c).reads = s.reads := (rfl)
@[simp] theorem State.setFault_draws (c : Cause) : (s.setFault c).draws = s.draws := (rfl)

/-! ### setH -/

@[simp] theorem State.setH_h (d : Digest) : (s.setH d).h = d := (rfl)
@[simp] theorem State.setH_blk (d : Digest) : (s.setH d).blk = s.blk := (rfl)
@[simp] theorem State.setH_msglenLo (d : Digest) : (s.setH d).msglenLo = s.msglenLo := (rfl)
@[simp] theorem State.setH_msglenHi (d : Digest) : (s.setH d).msglenHi = s.msglenHi := (rfl)
@[simp] theorem State.setH_hex (d : Digest) : (s.setH d).hex = s.hex := (rfl)
@[simp] theorem State.setH_status (d : Digest) : (s.setH d).status = s.status := (rfl)
@[simp] theorem State.setH_pend (d : Digest) : (s.setH d).pend = s.pend := (rfl)
@[simp] theorem State.setH_schedule (d : Digest) : (s.setH d).schedule = s.schedule := (rfl)
@[simp] theorem State.setH_reads (d : Digest) : (s.setH d).reads = s.reads := (rfl)
@[simp] theorem State.setH_draws (d : Digest) : (s.setH d).draws = s.draws := (rfl)

/-! ### setHex -/

@[simp] theorem State.setHex_h (v : Vector Word 10) : (s.setHex v).h = s.h := (rfl)
@[simp] theorem State.setHex_blk (v : Vector Word 10) : (s.setHex v).blk = s.blk := (rfl)
@[simp] theorem State.setHex_msglenLo (v : Vector Word 10) : (s.setHex v).msglenLo = s.msglenLo := (rfl)
@[simp] theorem State.setHex_msglenHi (v : Vector Word 10) : (s.setHex v).msglenHi = s.msglenHi := (rfl)
@[simp] theorem State.setHex_hex (v : Vector Word 10) : (s.setHex v).hex = v := (rfl)
@[simp] theorem State.setHex_status (v : Vector Word 10) : (s.setHex v).status = s.status := (rfl)
@[simp] theorem State.setHex_pend (v : Vector Word 10) : (s.setHex v).pend = s.pend := (rfl)
@[simp] theorem State.setHex_schedule (v : Vector Word 10) : (s.setHex v).schedule = s.schedule := (rfl)
@[simp] theorem State.setHex_reads (v : Vector Word 10) : (s.setHex v).reads = s.reads := (rfl)
@[simp] theorem State.setHex_draws (v : Vector Word 10) : (s.setHex v).draws = s.draws := (rfl)

/-! ### setBlk -/

@[simp] theorem State.setBlk_h (i : Fin 16) (v : Word) : (s.setBlk i v).h = s.h := (rfl)
@[simp] theorem State.setBlk_blk (i : Fin 16) (v : Word) : (s.setBlk i v).blk = s.blk.set i v := (rfl)
@[simp] theorem State.setBlk_msglenLo (i : Fin 16) (v : Word) : (s.setBlk i v).msglenLo = s.msglenLo := (rfl)
@[simp] theorem State.setBlk_msglenHi (i : Fin 16) (v : Word) : (s.setBlk i v).msglenHi = s.msglenHi := (rfl)
@[simp] theorem State.setBlk_hex (i : Fin 16) (v : Word) : (s.setBlk i v).hex = s.hex := (rfl)
@[simp] theorem State.setBlk_status (i : Fin 16) (v : Word) : (s.setBlk i v).status = s.status := (rfl)
@[simp] theorem State.setBlk_pend (i : Fin 16) (v : Word) : (s.setBlk i v).pend = s.pend := (rfl)
@[simp] theorem State.setBlk_schedule (i : Fin 16) (v : Word) : (s.setBlk i v).schedule = s.schedule := (rfl)
@[simp] theorem State.setBlk_reads (i : Fin 16) (v : Word) : (s.setBlk i v).reads = s.reads := (rfl)
@[simp] theorem State.setBlk_draws (i : Fin 16) (v : Word) : (s.setBlk i v).draws = s.draws := (rfl)

/-! ### setMsglenLo -/

@[simp] theorem State.setMsglenLo_h (v : Word) : (s.setMsglenLo v).h = s.h := (rfl)
@[simp] theorem State.setMsglenLo_blk (v : Word) : (s.setMsglenLo v).blk = s.blk := (rfl)
@[simp] theorem State.setMsglenLo_msglenLo (v : Word) : (s.setMsglenLo v).msglenLo = v := (rfl)
@[simp] theorem State.setMsglenLo_msglenHi (v : Word) : (s.setMsglenLo v).msglenHi = s.msglenHi := (rfl)
@[simp] theorem State.setMsglenLo_hex (v : Word) : (s.setMsglenLo v).hex = s.hex := (rfl)
@[simp] theorem State.setMsglenLo_status (v : Word) : (s.setMsglenLo v).status = s.status := (rfl)
@[simp] theorem State.setMsglenLo_pend (v : Word) : (s.setMsglenLo v).pend = s.pend := (rfl)
@[simp] theorem State.setMsglenLo_schedule (v : Word) : (s.setMsglenLo v).schedule = s.schedule := (rfl)
@[simp] theorem State.setMsglenLo_reads (v : Word) : (s.setMsglenLo v).reads = s.reads := (rfl)
@[simp] theorem State.setMsglenLo_draws (v : Word) : (s.setMsglenLo v).draws = s.draws := (rfl)

/-! ### setMsglenHi -/

@[simp] theorem State.setMsglenHi_h (v : Word) : (s.setMsglenHi v).h = s.h := (rfl)
@[simp] theorem State.setMsglenHi_blk (v : Word) : (s.setMsglenHi v).blk = s.blk := (rfl)
@[simp] theorem State.setMsglenHi_msglenLo (v : Word) : (s.setMsglenHi v).msglenLo = s.msglenLo := (rfl)
@[simp] theorem State.setMsglenHi_msglenHi (v : Word) : (s.setMsglenHi v).msglenHi = v := (rfl)
@[simp] theorem State.setMsglenHi_hex (v : Word) : (s.setMsglenHi v).hex = s.hex := (rfl)
@[simp] theorem State.setMsglenHi_status (v : Word) : (s.setMsglenHi v).status = s.status := (rfl)
@[simp] theorem State.setMsglenHi_pend (v : Word) : (s.setMsglenHi v).pend = s.pend := (rfl)
@[simp] theorem State.setMsglenHi_schedule (v : Word) : (s.setMsglenHi v).schedule = s.schedule := (rfl)
@[simp] theorem State.setMsglenHi_reads (v : Word) : (s.setMsglenHi v).reads = s.reads := (rfl)
@[simp] theorem State.setMsglenHi_draws (v : Word) : (s.setMsglenHi v).draws = s.draws := (rfl)

/-! ### setPend -/

@[simp] theorem State.setPend_h (p : Option Instr) : (s.setPend p).h = s.h := (rfl)
@[simp] theorem State.setPend_blk (p : Option Instr) : (s.setPend p).blk = s.blk := (rfl)
@[simp] theorem State.setPend_msglenLo (p : Option Instr) : (s.setPend p).msglenLo = s.msglenLo := (rfl)
@[simp] theorem State.setPend_msglenHi (p : Option Instr) : (s.setPend p).msglenHi = s.msglenHi := (rfl)
@[simp] theorem State.setPend_hex (p : Option Instr) : (s.setPend p).hex = s.hex := (rfl)
@[simp] theorem State.setPend_status (p : Option Instr) : (s.setPend p).status = s.status := (rfl)
@[simp] theorem State.setPend_pend (p : Option Instr) : (s.setPend p).pend = p := (rfl)
@[simp] theorem State.setPend_schedule (p : Option Instr) : (s.setPend p).schedule = s.schedule := (rfl)
@[simp] theorem State.setPend_reads (p : Option Instr) : (s.setPend p).reads = s.reads := (rfl)
@[simp] theorem State.setPend_draws (p : Option Instr) : (s.setPend p).draws = s.draws := (rfl)

/-! ### setSchedule -/

@[simp] theorem State.setSchedule_h (es : List Event) : (s.setSchedule es).h = s.h := (rfl)
@[simp] theorem State.setSchedule_blk (es : List Event) : (s.setSchedule es).blk = s.blk := (rfl)
@[simp] theorem State.setSchedule_msglenLo (es : List Event) : (s.setSchedule es).msglenLo = s.msglenLo := (rfl)
@[simp] theorem State.setSchedule_msglenHi (es : List Event) : (s.setSchedule es).msglenHi = s.msglenHi := (rfl)
@[simp] theorem State.setSchedule_hex (es : List Event) : (s.setSchedule es).hex = s.hex := (rfl)
@[simp] theorem State.setSchedule_status (es : List Event) : (s.setSchedule es).status = s.status := (rfl)
@[simp] theorem State.setSchedule_pend (es : List Event) : (s.setSchedule es).pend = s.pend := (rfl)
@[simp] theorem State.setSchedule_schedule (es : List Event) : (s.setSchedule es).schedule = es := (rfl)
@[simp] theorem State.setSchedule_reads (es : List Event) : (s.setSchedule es).reads = s.reads := (rfl)
@[simp] theorem State.setSchedule_draws (es : List Event) : (s.setSchedule es).draws = s.draws := (rfl)

/-! ### returnRead -/

@[simp] theorem State.returnRead_h (v : Word) : (s.returnRead v).h = s.h := (rfl)
@[simp] theorem State.returnRead_blk (v : Word) : (s.returnRead v).blk = s.blk := (rfl)
@[simp] theorem State.returnRead_msglenLo (v : Word) : (s.returnRead v).msglenLo = s.msglenLo := (rfl)
@[simp] theorem State.returnRead_msglenHi (v : Word) : (s.returnRead v).msglenHi = s.msglenHi := (rfl)
@[simp] theorem State.returnRead_hex (v : Word) : (s.returnRead v).hex = s.hex := (rfl)
@[simp] theorem State.returnRead_status (v : Word) : (s.returnRead v).status = s.status := (rfl)
@[simp] theorem State.returnRead_pend (v : Word) : (s.returnRead v).pend = s.pend := (rfl)
@[simp] theorem State.returnRead_schedule (v : Word) : (s.returnRead v).schedule = s.schedule := (rfl)
@[simp] theorem State.returnRead_reads (v : Word) : (s.returnRead v).reads = s.reads ++ [v] := (rfl)
@[simp] theorem State.returnRead_draws (v : Word) : (s.returnRead v).draws = s.draws := (rfl)

/-! ### returnAny -/

@[simp] theorem State.returnAny_h : (s.returnAny).h = s.h := (rfl)
@[simp] theorem State.returnAny_blk : (s.returnAny).blk = s.blk := (rfl)
@[simp] theorem State.returnAny_msglenLo : (s.returnAny).msglenLo = s.msglenLo := (rfl)
@[simp] theorem State.returnAny_msglenHi : (s.returnAny).msglenHi = s.msglenHi := (rfl)
@[simp] theorem State.returnAny_hex : (s.returnAny).hex = s.hex := (rfl)
@[simp] theorem State.returnAny_status : (s.returnAny).status = s.status := (rfl)
@[simp] theorem State.returnAny_pend : (s.returnAny).pend = s.pend := (rfl)
@[simp] theorem State.returnAny_schedule : (s.returnAny).schedule = s.schedule := (rfl)
@[simp] theorem State.returnAny_reads : (s.returnAny).reads = s.reads ++ [Config.anyWord s.draws] := (rfl)
@[simp] theorem State.returnAny_draws : (s.returnAny).draws = s.draws + 1 := (rfl)

/-! ### endCommand -/

@[simp] theorem State.endCommand_h : (s.endCommand).h = s.h := (rfl)
@[simp] theorem State.endCommand_blk : (s.endCommand).blk = s.blk := (rfl)
@[simp] theorem State.endCommand_msglenLo : (s.endCommand).msglenLo = s.msglenLo := (rfl)
@[simp] theorem State.endCommand_msglenHi : (s.endCommand).msglenHi = s.msglenHi := (rfl)
@[simp] theorem State.endCommand_hex : (s.endCommand).hex = s.hex := (rfl)
@[simp] theorem State.endCommand_status : (s.endCommand).status = { s.status with busy := false } := (rfl)
@[simp] theorem State.endCommand_pend : (s.endCommand).pend = none := (rfl)
@[simp] theorem State.endCommand_schedule : (s.endCommand).schedule = s.schedule := (rfl)
@[simp] theorem State.endCommand_reads : (s.endCommand).reads = s.reads := (rfl)
@[simp] theorem State.endCommand_draws : (s.endCommand).draws = s.draws := (rfl)

/-! ### abandonCommand -/

@[simp] theorem State.abandonCommand_h : (s.abandonCommand).h = drawDigest s.draws := (rfl)
@[simp] theorem State.abandonCommand_blk : (s.abandonCommand).blk = s.blk := (rfl)
@[simp] theorem State.abandonCommand_msglenLo : (s.abandonCommand).msglenLo = s.msglenLo := (rfl)
@[simp] theorem State.abandonCommand_msglenHi : (s.abandonCommand).msglenHi = s.msglenHi := (rfl)
@[simp] theorem State.abandonCommand_hex : (s.abandonCommand).hex = drawHex (s.draws + 5) := (rfl)
@[simp] theorem State.abandonCommand_status : (s.abandonCommand).status = { s.status with busy := false } := (rfl)
@[simp] theorem State.abandonCommand_pend : (s.abandonCommand).pend = none := (rfl)
@[simp] theorem State.abandonCommand_schedule : (s.abandonCommand).schedule = s.schedule := (rfl)
@[simp] theorem State.abandonCommand_reads : (s.abandonCommand).reads = s.reads := (rfl)
@[simp] theorem State.abandonCommand_draws : (s.abandonCommand).draws = s.draws + 15 := (rfl)

/-! ### resetBlock -/

@[simp] theorem resetBlock_h : (resetBlock s).h = IV := (rfl)
@[simp] theorem resetBlock_blk : (resetBlock s).blk = Vector.replicate 16 0 := (rfl)
@[simp] theorem resetBlock_msglenLo : (resetBlock s).msglenLo = 0 := (rfl)
@[simp] theorem resetBlock_msglenHi : (resetBlock s).msglenHi = 0 := (rfl)
@[simp] theorem resetBlock_hex : (resetBlock s).hex = Vector.replicate 10 0 := (rfl)
@[simp] theorem resetBlock_status : (resetBlock s).status = { busy := false, done := false, fault := false, cause := .noFault } := (rfl)
@[simp] theorem resetBlock_pend : (resetBlock s).pend = none := (rfl)
@[simp] theorem resetBlock_schedule : (resetBlock s).schedule = s.schedule := (rfl)
@[simp] theorem resetBlock_reads : (resetBlock s).reads = s.reads := (rfl)
@[simp] theorem resetBlock_draws : (resetBlock s).draws = s.draws := (rfl)

end Sys2Proof.Machine
end

