-- ==== Sys2Proof/Laws/Ops.lean ====
section
/-! SUPPORT. What fault entry, the HOST step and the events do, once each: the lemmas the proofs cite instead of
unfolding them. -/

namespace Sys2Proof.Machine

/-! ### Fault entry -/

/-- Fault entry while idle. -/
theorem raiseFault_of_idle {c : Cause} {s : State} (h : s.status.busy = false) :
    raiseFault c s = s.setFault c := by simp [raiseFault, h]

/-- Fault entry while busy. -/
theorem raiseFault_of_busy {c : Cause} {s : State} (h : s.status.busy = true) :
    raiseFault c s = (s.setFault c).abandonCommand := by simp [raiseFault, h]

@[simp] theorem raiseFault_blk (c : Cause) (s : State) : (raiseFault c s).blk = s.blk := by
  unfold raiseFault; split <;> rfl

@[simp] theorem raiseFault_msglenLo (c : Cause) (s : State) : (raiseFault c s).msglenLo = s.msglenLo := by
  unfold raiseFault; split <;> rfl

@[simp] theorem raiseFault_msglenHi (c : Cause) (s : State) : (raiseFault c s).msglenHi = s.msglenHi := by
  unfold raiseFault; split <;> rfl

@[simp] theorem raiseFault_schedule (c : Cause) (s : State) : (raiseFault c s).schedule = s.schedule := by
  unfold raiseFault; split <;> rfl

@[simp] theorem raiseFault_reads (c : Cause) (s : State) : (raiseFault c s).reads = s.reads := by
  unfold raiseFault; split <;> rfl

@[simp] theorem raiseFault_status (c : Cause) (s : State) :
    (raiseFault c s).status = { busy := false, done := s.status.done, fault := true, cause := c } := by
  unfold raiseFault
  split
  · rfl
  · next h => simp at h; simp [h]

/-- Fault entry is the relation of the rule (60_exceptions R157). -/
theorem raiseFault_enters (c : Cause) (s : State) : FaultEntered c s (raiseFault c s) := by
  cases h : s.status.busy <;> simp [FaultEntered, raiseFault, h]

/-- `FaultEntered` does not look at the values returned to the host, at the schedule or at the draw counter. -/
theorem FaultEntered.of_same_fields {c : Cause} {s s' t t' : State} (h : FaultEntered c s t)
    (hs : SameBlock s s') (ht : SameBlock t t') : FaultEntered c s' t' := by
  obtain ⟨hs1, hs2, hs3, hs4, hs5, hs6, hs7⟩ := hs
  obtain ⟨ht1, ht2, ht3, ht4, ht5, ht6, ht7⟩ := ht
  simpa only [FaultEntered, hs1, hs2, hs3, hs4, hs5, hs6, hs7, ht1, ht2, ht3, ht4, ht5, ht6, ht7] using h

/-- A faulting access: fault entry, a value to the host if it was a read. -/
theorem raiseFaultOn_spec (dir : Dir) (c : Cause) (s : State) :
    SameBlock (raiseFault c s) (raiseFaultOn dir c s) ∧ (raiseFaultOn dir c s).schedule = s.schedule ∧
      ReturnsToHost dir s (raiseFaultOn dir c s) := by
  cases dir <;> simp [raiseFaultOn, SameBlock, ReturnsToHost]

theorem raiseFaultOn_enters (dir : Dir) (c : Cause) (s : State) : FaultEntered c s (raiseFaultOn dir c s) :=
  (raiseFault_enters c s).of_same_fields ⟨rfl, rfl, rfl, rfl, rfl, rfl, rfl⟩ (raiseFaultOn_spec dir c s).1

/-! ### Register reads and the address map -/

/-- A read changes nothing of the block and returns one value: the register's, unless it is a result register while
BUSY = 1 (44_host_access R125, R131). -/
theorem readReg_spec (r : Reg) (s : State) :
    SameBlock s (readReg r s) ∧ (readReg r s).schedule = s.schedule ∧
      ∃ v, (readReg r s).reads = s.reads ++ [v] ∧
        ((isResultReg r = true → s.status.busy = false) → v = regValue s r) := by
  unfold readReg
  split
  · next h =>
      simp only [Bool.and_eq_true] at h
      exact ⟨⟨rfl, rfl, rfl, rfl, rfl, rfl, rfl⟩, rfl, _, rfl, fun hb => by simp [hb h.2] at h⟩
  · exact ⟨⟨rfl, rfl, rfl, rfl, rfl, rfl, rfl⟩, rfl, _, rfl, fun _ => rfl⟩

@[simp] theorem offset_aligned (r : Reg) : (Reg.offset r).val % 4 = 0 := by
  cases r <;> simp [Reg.offset]

/-- The address map gives each register back at its offset (20_memory R42). -/
@[simp] theorem regAt_offset (r : Reg) : regAt r.offset = some r := by
  cases r with
  | h i => revert i; decide
  | blk i => revert i; decide
  | hex k => revert k; decide
  | cmd => rfl
  | status => rfl
  | msglenLo => rfl
  | msglenHi => rfl

/-- An aligned offset holds a register or lies in an unmapped range (20_memory R42, R45). -/
theorem regAt_eq_some_iff (o : Offset) (h : o.val % 4 = 0) (r : Reg) : regAt o = some r ↔ o = r.offset := by
  constructor
  · revert h r
    revert o
    simp only [regAt]
    intro o h r
    repeat' split
    all_goals
      intro hr
      first
        | (cases hr; apply Fin.ext; simp [Reg.offset]; omega)
        | (cases hr)
  · rintro rfl
    simp

theorem regAt_eq_none_iff (o : Offset) :
    regAt o = none ↔ (0x024 ≤ o.val ∧ o.val ≤ 0x03F) ∨ 0x0A8 ≤ o.val := by
  unfold regAt
  repeat' split
  all_goals simp
  all_goals omega

/-! ### The HOST step -/

/-- An access in the fault state changes nothing of the block (44_host_access R133). -/
theorem faultStateAccess_spec (a : Access) (s : State) :
    SameBlock s (faultStateAccess a s) ∧ (faultStateAccess a s).schedule = s.schedule := by
  unfold faultStateAccess
  split
  · exact ⟨⟨rfl, rfl, rfl, rfl, rfl, rfl, rfl⟩, rfl⟩
  · split
    · exact ⟨⟨rfl, rfl, rfl, rfl, rfl, rfl, rfl⟩, rfl⟩
    · split
      · exact ⟨⟨rfl, rfl, rfl, rfl, rfl, rfl, rfl⟩, rfl⟩
      · exact ⟨(readReg_spec _ s).1, (readReg_spec _ s).2.1⟩

/-- What issuing a command word does: ILLEGAL_CMD, SEQUENCE, or the command pending (44_host_access R129). -/
theorem issue_cases (v : Word) (s : State) :
    ((∃ why, decode v = .illegal why) ∧ issue v s = raiseFault .illegalCmd s) ∨
    (∃ i, decode v = .command i ∧ (changesDigest i = true ∧ s.status.done = true) ∧ issue v s = raiseFault .sequence s) ∨
    (∃ i, decode v = .command i ∧ (changesDigest i = true → s.status.done = false) ∧
      issue v s = (s.setPend (some i)).setBusy true) := by
  unfold issue
  cases hd : decode v with
  | illegal why => exact .inl ⟨⟨why, rfl⟩, rfl⟩
  | command i =>
    cases hc : changesDigest i <;> cases hdone : s.status.done <;> simp [hc]

/-- Everything a host access can do: answer (nothing of the block changes), raise a fault, store into one data register
while idle, or make a command pending while idle. -/
theorem hostAccess_cases (a : Access) (s : State) :
    SameBlock s (hostAccess a s) ∨
    (s.status.fault = false ∧ ∃ c, c ≠ .noFault ∧ c ≠ .internal ∧ FaultEntered c s (hostAccess a s)) ∨
    (s.Idle ∧ ∃ i v, a = { off := Reg.offset (.blk i), width := 4, dir := .write v } ∧ hostAccess a s = s.setBlk i v) ∨
    (s.Idle ∧ ∃ v, a = { off := Reg.offset .msglenLo, width := 4, dir := .write v } ∧ hostAccess a s = s.setMsglenLo v) ∨
    (s.Idle ∧ ∃ v, a = { off := Reg.offset .msglenHi, width := 4, dir := .write v } ∧ hostAccess a s = s.setMsglenHi v) ∨
    (s.Idle ∧ ∃ i v, a = { off := Reg.offset .cmd, width := 4, dir := .write v } ∧ decode v = .command i ∧
      (changesDigest i = true → s.status.done = false) ∧ hostAccess a s = (s.setPend (some i)).setBusy true) := by
  obtain ⟨off, width, dir⟩ := a
  unfold hostAccess
  cases hf : s.status.fault with
  | true => exact .inl (faultStateAccess_spec _ s).1
  | false =>
    simp only [Bool.false_eq_true, if_false]
    split
    · exact .inr (.inl ⟨trivial, _, by decide, by decide, raiseFaultOn_enters _ _ s⟩)
    · next hw =>
      simp only [not_or, Decidable.not_not] at hw
      obtain ⟨hw, ha⟩ := hw
      split
      · exact .inr (.inl ⟨trivial, _, by decide, by decide, raiseFaultOn_enters _ _ s⟩)
      · next r hr =>
        have ho : off = r.offset := (regAt_eq_some_iff off ha r).mp hr
        subst ho hw
        cases dir with
        | read => exact .inl (readReg_spec r s).1
        | write v =>
          simp only [regAccess]
          split
          · exact .inr (.inl ⟨trivial, _, by decide, by decide, raiseFaultOn_enters _ _ s⟩)
          · split
            · exact .inr (.inl ⟨trivial, _, by decide, by decide, raiseFaultOn_enters _ _ s⟩)
            · next hro hb =>
              have hidle : s.Idle := ⟨hf, by simpa using hb⟩
              cases r with
              | status => simp [isReadOnly] at hro
              | h i => simp [isReadOnly] at hro
              | hex k => simp [isReadOnly] at hro
              | blk i => exact .inr (.inr (.inl ⟨hidle, i, v, rfl, rfl⟩))
              | msglenLo => exact .inr (.inr (.inr (.inl ⟨hidle, v, rfl, rfl⟩)))
              | msglenHi => exact .inr (.inr (.inr (.inr (.inl ⟨hidle, v, rfl, rfl⟩))))
              | cmd =>
                simp only [hostWrite]
                rcases issue_cases v s with ⟨_, h⟩ | ⟨i, _, _, h⟩ | ⟨i, hd, hs, h⟩
                · exact .inr (.inl ⟨trivial, .illegalCmd, by decide, by decide, by rw [h]; exact raiseFault_enters _ s⟩)
                · exact .inr (.inl ⟨trivial, .sequence, by decide, by decide, by rw [h]; exact raiseFault_enters _ s⟩)
                · exact .inr (.inr (.inr (.inr (.inr ⟨hidle, i, v, rfl, hd, hs, h⟩))))

/-- No host access touches the schedule. -/
@[simp] theorem hostAccess_schedule (a : Access) (s : State) : (hostAccess a s).schedule = s.schedule := by
  have hissue : ∀ v, (issue v s).schedule = s.schedule := by
    intro v
    rcases issue_cases v s with ⟨_, h⟩ | ⟨_, _, _, h⟩ | ⟨_, _, _, h⟩ <;> simp [h]
  unfold hostAccess
  split
  · exact (faultStateAccess_spec a s).2
  · split
    · exact (raiseFaultOn_spec _ _ s).2.1
    · split
      · exact (raiseFaultOn_spec _ _ s).2.1
      · next r _ =>
        unfold regAccess
        split
        · exact (readReg_spec r s).2.1
        · split
          · exact (raiseFaultOn_spec _ _ s).2.1
          · split
            · exact (raiseFaultOn_spec _ _ s).2.1
            · cases r <;> first | exact hissue _ | rfl

/-! ### Address decode on the host bus -/

/-- A host address in the window has the offset addr − BASE (20_memory R43). -/
@[simp] theorem offsetOf_base_add (o : Offset) : offsetOf (Config.base + o.val) = some o := by
  have := o.isLt
  simp [offsetOf]
  omega

theorem offsetOf_eq_none_iff (addr : Nat) :
    offsetOf addr = none ↔ addr < Config.base ∨ Config.base + 0xFF < addr := by
  simp [offsetOf]
  omega

@[simp] theorem busAccess_schedule (addr width : Nat) (dir : Dir) (s : State) :
    (busAccess addr width dir s).schedule = s.schedule := by
  unfold busAccess; split <;> simp

end Sys2Proof.Machine
end

