-- ==== Sys2Proof/Laws/Padding.lean ====
section
/-! SUPPORT. Lengths of the padded tail and message, slices, and folds over blocks. -/

namespace Sys2Proof.Machine

/-- The number of zeros as the spec's two cases give it (42_padding_framing R102). -/
theorem zeroCount_eq (r : Nat) : zeroCount r = if r % 64 ≤ 55 then 55 - r % 64 else 119 - r % 64 := by
  unfold zeroCount; split <;> omega

@[simp] theorem zeroCount_mod (r : Nat) : zeroCount (r % 64) = zeroCount r := by
  simp only [zeroCount_eq, Nat.mod_mod]

@[simp] theorem lengthField_length (L : Nat) : (lengthField L).length = 8 := rfl

@[simp] theorem padTail_length (t : List Byte) (L : Nat) :
    (padTail t L).length = t.length + 1 + zeroCount t.length + 8 := by simp [padTail]; omega

@[simp] theorem padMsg_length (m : List Byte) :
    (padMsg m).length = m.length + 1 + zeroCount m.length + 8 := by simp [padMsg]; omega

/-- The two possible lengths of a padded tail (42_padding_framing R102). -/
theorem padTail_length_cases (t : List Byte) (L : Nat) (h : t.length ≤ 63) :
    (t.length ≤ 55 ∧ (padTail t L).length = 64) ∨ (56 ≤ t.length ∧ (padTail t L).length = 128) := by
  rw [padTail_length, zeroCount_eq]; split <;> omega

@[simp] theorem State.tail_length (s : State) : s.tail.length = s.tailLength := by
  simp [State.tail, State.tailLength]; omega

theorem slice_length (s : List Byte) (i j : Nat) (h : j ≤ s.length) : (slice s i j).length = j - i := by
  simp [slice]; omega

/-- A slice inside the first part of a concatenation. -/
theorem slice_append_left (a b : List Byte) (i j : Nat) (h : j ≤ a.length) : slice (a ++ b) i j = slice a i j := by
  unfold slice
  by_cases hi : i ≤ a.length
  · rw [List.drop_append_of_le_length hi, List.take_append_of_le_length (by simp; omega)]
  · have : j - i = 0 := by omega
    simp [this]

/-- A slice past the first part of a concatenation. -/
theorem slice_append_right (a b : List Byte) (i j : Nat) :
    slice (a ++ b) (a.length + i) (a.length + j) = slice b i j := by
  unfold slice
  rw [List.drop_append, List.drop_eq_nil_of_le (by omega)]
  simp [Nat.add_sub_add_left]

@[simp] theorem foldBlocks_zero (S : Digest) (P : List Byte) : foldBlocks S P 0 = S := rfl

theorem foldBlocks_succ (S : Digest) (P : List Byte) (n : Nat) :
    foldBlocks S P (n + 1) = compressBlock (foldBlocks S P n) (slice P (64 * n) (64 * n + 64)) := by
  rw [foldBlocks, foldBlocks, List.range_succ, List.foldl_append, List.foldl_cons, List.foldl_nil]

/-- Folding over the blocks of a concatenation, the first part whole blocks, is folding over the one and then the other. -/
theorem foldBlocks_append (S : Digest) (a b : List Byte) (n k : Nat) (h : a.length = 64 * n) :
    foldBlocks S (a ++ b) (n + k) = foldBlocks (foldBlocks S a n) b k := by
  have first : ∀ j, j ≤ n → foldBlocks S (a ++ b) j = foldBlocks S a j := by
    intro j
    induction j with
    | zero => intro _; rw [foldBlocks_zero, foldBlocks_zero]
    | succ j ih =>
      intro hj
      rw [foldBlocks_succ, foldBlocks_succ, ih (by omega), slice_append_left _ _ _ _ (by omega)]
  induction k with
  | zero => rw [foldBlocks_zero, Nat.add_zero, first n (Nat.le_refl n)]
  | succ k ih =>
    have hs := slice_append_right a b (64 * k) (64 * k + 64)
    rw [h, ← Nat.add_assoc, ← Nat.mul_add] at hs
    rw [← Nat.add_assoc, foldBlocks_succ, foldBlocks_succ, ih, hs]

end Sys2Proof.Machine
end

