-- ==== Sys2Proof/Laws/PerInstr.lean ====
section
/-! SUPPORT. Per-instruction statements: the encoding of each command reads back as it. -/

namespace Sys2Proof.Laws.RoundTrip

/-- A well-formed command's word decodes to the command (30_encoding R61–R65). -/
def Statement (i : Instr) : Prop := i.wf = true → decode (encode i) = .command i

theorem init : Statement .init := fun _ => by decide

theorem compress : Statement .compress := fun _ => by decide

theorem final : Statement .final := fun _ => by decide

theorem encode (case : LetterCase) : Statement (.encode case) := fun _ => by cases case <;> decide

end Sys2Proof.Laws.RoundTrip
end

