-- ==== Sys2Proof/Laws/Step.lean ====
section
/-! SUPPORT. What one step can do, said once, and that every step answers a next state. -/

namespace Sys2Proof.Machine

/-- The four commands always answer a next state, and this is it (44_host_access R130). -/
theorem exec_init (s : State) : exec .init s = .next ((s.setH IV).setDone false).endCommand := rfl

theorem exec_compress (s : State) :
    exec .compress s = .next (s.setH (compressBlock s.h s.blkBytes)).endCommand := rfl

theorem exec_final (s : State) :
    exec .final s = .next ((s.setH (finalDigest s.h (padTail s.tail s.msglen))).setDone true).endCommand := rfl

theorem exec_encode (c : LetterCase) (s : State) :
    exec (.encode c) s = .next (s.setHex (hexWords (renderDigest s.h c))).endCommand := rfl

/-- The same four next states as records. -/
theorem exec_init_record (s : State) :
    exec .init s = .next { s with h := IV, status := { s.status with done := false, busy := false }, pend := none } := rfl

theorem exec_compress_record (s : State) :
    exec .compress s = .next { s with
      h := compressBlock s.h s.blkBytes, status := { s.status with busy := false }, pend := none } := rfl

theorem exec_final_record (s : State) :
    exec .final s = .next { s with
      h := finalDigest s.h (padTail s.tail s.msglen), status := { s.status with done := true, busy := false },
      pend := none } := rfl

theorem exec_encode_record (c : LetterCase) (s : State) :
    exec (.encode c) s = .next { s with
      hex := hexWords (renderDigest s.h c), status := { s.status with busy := false }, pend := none } := rfl

/-- Every command completes in every state, keeping BLK, MSGLEN, FAULT, CAUSE and the model's own fields. -/
theorem exec_spec (i : Instr) (s : State) :
    ∃ t, exec i s = .next t ∧ t.pend = none ∧ t.status.busy = false ∧
      t.blk = s.blk ∧ t.msglenLo = s.msglenLo ∧ t.msglenHi = s.msglenHi ∧
      t.status.fault = s.status.fault ∧ t.status.cause = s.status.cause ∧
      t.schedule = s.schedule ∧ t.reads = s.reads ∧ t.draws = s.draws := by
  cases i with
  | init => exact ⟨_, exec_init s, by simp⟩
  | compress => exact ⟨_, exec_compress s, by simp⟩
  | final => exact ⟨_, exec_final s, by simp⟩
  | encode c => exact ⟨_, exec_encode c s, by simp⟩

/-- Everything one step can do: CORE performs the pending command; RESET; a host access to the window; or nothing (CORE's
turn with nothing pending, or a bus transaction outside the window). -/
theorem step_cases (s : State) :
    (∃ i, s.nextCommand = some i ∧ s.pend = some i ∧ step s = exec i (s.setSchedule s.schedule.tail)) ∨
    (s.nextCommand = none ∧ s.ResetNext ∧ step s = .next (resetBlock (s.setSchedule s.schedule.tail))) ∨
    (s.nextCommand = none ∧ ¬ s.ResetNext ∧
      ∃ a, s.nextAccess = some a ∧ step s = .next (hostAccess a (s.setSchedule s.schedule.tail))) ∨
    (s.nextCommand = none ∧ ¬ s.ResetNext ∧ s.nextAccess = none ∧
      step s = .next (s.setSchedule s.schedule.tail)) := by
  obtain ⟨h, blk, lo, hi, hex, status, pend, schedule, reads, draws⟩ := s
  cases schedule with
  | nil =>
    cases pend with
    | none => exact .inr (.inr (.inr ⟨rfl, by simp, rfl, rfl⟩))
    | some i => exact .inl ⟨i, rfl, rfl, rfl⟩
  | cons e rest =>
    cases e with
    | core =>
      cases pend with
      | none => exact .inr (.inr (.inr ⟨rfl, by simp, rfl, rfl⟩))
      | some i => exact .inl ⟨i, rfl, rfl, rfl⟩
    | reset => exact .inr (.inl ⟨rfl, rfl, rfl⟩)
    | access a => exact .inr (.inr (.inl ⟨rfl, by simp, a, rfl, rfl⟩))
    | bus addr width dir =>
      cases ho : offsetOf addr with
      | none => exact .inr (.inr (.inr ⟨rfl, by simp, by simp [State.nextAccess, ho],
          by simp [step, perform, busAccess, ho]⟩))
      | some o => exact .inr (.inr (.inl ⟨rfl, by simp, { off := o, width := width, dir := dir },
          by simp [State.nextAccess, ho], by simp [step, perform, busAccess, ho]⟩))

/-- A step consumes the first event and no other. -/
theorem step_schedule {s t : State} (h : step s = .next t) : t.schedule = s.schedule.tail := by
  rcases step_cases s with ⟨i, _, _, hs⟩ | ⟨_, _, hs⟩ | ⟨_, _, a, _, hs⟩ | ⟨_, _, _, hs⟩
  · obtain ⟨u, hu, _, _, _, _, _, _, _, hsch, _⟩ := exec_spec i (s.setSchedule s.schedule.tail)
    rw [hs, hu] at h
    cases h
    simpa using hsch
  · rw [hs] at h; cases h; rfl
  · rw [hs] at h; cases h; simp
  · rw [hs] at h; cases h; rfl

@[simp] theorem run_zero (s : State) : Host.Core.run core 0 s = .next s := rfl

/-- One step of a run. -/
theorem run_succ_of_step {s t : State} (k : Nat) (h : step s = .next t) :
    Host.Core.run core (k + 1) s = Host.Core.run core k t := by
  have hc : core.step s = .next t := h
  simp only [Host.Core.run, hc]

@[simp] theorem performed_zero (s : State) : performed 0 s = [] := rfl

/-- A step that performs `i` puts it first among the commands performed. -/
theorem performed_succ_of_command {s t : State} {i : Instr} (k : Nat) (hi : s.nextCommand = some i)
    (h : step s = .next t) : performed (k + 1) s = (i, s) :: performed k t := by
  simp [performed, hi, h]

/-- A step that performs no command adds none. -/
theorem performed_succ_of_none {s t : State} (k : Nat) (hn : s.nextCommand = none) (h : step s = .next t) :
    performed (k + 1) s = performed k t := by
  simp [performed, hn, h]

end Sys2Proof.Machine
end

