-- ==== Sys2Proof/Tests/Slice0.lean ====
section
/-! SUPPORT. Tests on fixed values, each expected result from spec/95_test_vectors.md or from the rule named, and a witness
for the hypotheses of every statement that has some. -/

namespace Sys2Proof.Tests.Slice0

open Sys2Proof.Machine

/-! ### Helpers -/

/-- The state one step leaves when the events to come are `es`. -/
def stepWith (es : List Event) (s : State) : State :=
  match step (s.setSchedule es) with
  | .next t => t
  | .fault r => nomatch r
  | .refused _ => s

/-- The state after the CORE step of `i`. -/
def after (i : Instr) (s : State) : State :=
  match exec i s with
  | .next t => t
  | .fault r => nomatch r
  | .refused _ => s

/-- STATUS as a read returns it. -/
def statusOf (s : State) : Word := statusWord s.status

/-- The state after WR32 CMD, 0x00000001 (V-H). -/
def busyInit : State := stepWith [wr32 .cmd 0x00000001] State.reset

/-- DONE = 1 (a FINAL has completed). -/
def doneState : State := State.reset.setDone true

/-- A fault state of cause BAD_ACCESS. -/
def faulted : State := State.reset.setFault .badAccess

/-- The reset state with BLK all equal to `w`. -/
def blkAll (w : Word) : State := { State.reset with blk := Vector.replicate 16 w }

/-- The tail of V-P4 in BLK, and MSGLEN = 56. -/
def vP4 : State :=
  { State.reset with
    blk := #v[0x61626364, 0x62636465, 0x63646566, 0x64656667, 0x65666768, 0x66676869, 0x6768696A, 0x68696A6B,
              0x696A6B6C, 0x6A6B6C6D, 0x6B6C6D6E, 0x6C6D6E6F, 0x6D6E6F70, 0x6E6F7071, 0x00000000, 0x00000000]
    msglenLo := 56 }

/-! ### Well-formedness smoke: each check refuses an ill-formed term -/

theorem test_wf_width : Access.wf { off := 0x40, width := 1, dir := .write 0 } = false := by decide
theorem test_wf_alignment : Access.wf { off := 0x42, width := 4, dir := .read } = false := by decide
theorem test_wf_unmapped_low : Access.wf { off := 0x3C, width := 4, dir := .read } = false := by decide
theorem test_wf_unmapped_high : Access.wf { off := 0xA8, width := 4, dir := .read } = false := by decide
theorem test_wf_admitted : Access.wf { off := 0xA4, width := 4, dir := .read } = true := by decide
theorem test_wf_setLen : Pseudo.wf (.setLen (2 ^ 64)) = false := by decide
theorem test_wf_loadBlk : Pseudo.wf (.loadBlk (List.replicate 63 0)) = false := by decide
theorem test_wf_loadTail : Pseudo.wf (.loadTail (List.replicate 64 0)) = false := by decide
theorem test_wf_instr : (Instr.wf .init && Instr.wf (.encode .upper)) = true := by decide

/-! ### Decoding (30_encoding R61–R65; V-D): RSV [31:5], U [4], OP [3:0], written out bit by bit -/

theorem test_decode_init : decode 0b000000000000000000000000000_0_0001 = .command .init := by decide
theorem test_decode_compress : decode 0b000000000000000000000000000_0_0010 = .command .compress := by decide
theorem test_decode_final : decode 0b000000000000000000000000000_0_0011 = .command .final := by decide
theorem test_decode_encode_lower : decode 0b000000000000000000000000000_0_0100 = .command (.encode .lower) := by decide
theorem test_decode_encode_upper : decode 0b000000000000000000000000000_1_0100 = .command (.encode .upper) := by decide
theorem test_decode_op0 : decode 0x00000010 = .illegal .unassignedOp := by decide
theorem test_decode_op15 : decode 0x0000000F = .illegal .unassignedOp := by decide
theorem test_decode_case_bit : decode 0x00000013 = .illegal .caseBit := by decide
theorem test_decode_rsv_low : decode 0x00000024 = .illegal .reservedBits := by decide
theorem test_decode_rsv_high : decode 0x80000001 = .illegal .reservedBits := by decide
theorem test_decodeTableWord : decodeTableWord 32 0x14 = some (.encode .upper) := by decide
theorem test_decodeTableWord_illegal : decodeTableWord 32 0x12 = none := by decide

/-! ### Arithmetic, round functions, schedule (V-A, V-F, V-W) -/

theorem test_rotl : rotl 0x12345678 5 = 0x468ACF02 ∧ rotl 0x12345678 30 = 0x048D159E ∧ rotl 0x80000000 1 = 1 := by
  decide
theorem test_roundFunction : roundFunction 0 0xF0F0F0F0 0xCCCCCCCC 0xAAAAAAAA = 0xCACACACA ∧
    roundFunction 1 0xF0F0F0F0 0xCCCCCCCC 0xAAAAAAAA = 0x96969696 ∧
    roundFunction 2 0xF0F0F0F0 0xCCCCCCCC 0xAAAAAAAA = 0xE8E8E8E8 ∧
    roundFunction 3 0xF0F0F0F0 0xCCCCCCCC 0xAAAAAAAA = 0x96969696 := by decide
theorem test_quadrant : [19, 20, 39, 40, 59, 60, 79].map quadrant = [0, 1, 1, 2, 2, 3, 3] := by decide
theorem test_schedule : ((messageSchedule (padTail [0x61, 0x62, 0x63] 3)).drop 76) =
    [0xE6E60B69, 0x00F60A00, 0x5795EF4F, 0x822E0879] := by decide +kernel

/-! ### The commands (V-C, V-P, V-E, 40_digest_state R78) -/

theorem test_init : (after .init { vP4 with h := drawDigest 0, status := doneState.status }).h =
    ⟨0x67452301, 0xEFCDAB89, 0x98BADCFE, 0x10325476, 0xC3D2E1F0⟩ := by decide
theorem test_init_done : (after .init doneState).status.done = false := by decide
theorem test_compress_zero_block : (after .compress State.reset).h =
    ⟨0x92B404E5, 0x56588CED, 0x6C1ACD4E, 0xBF053F68, 0x09F73A93⟩ := by decide +kernel
theorem test_compress_ff_block : (after .compress (blkAll 0xFFFFFFFF)).h =
    ⟨0xBAFBC2C8, 0x7C333226, 0x03F38E06, 0xC3E0F79C, 0x1F1B1475⟩ := by decide +kernel
theorem test_final_abc : (after .final { (blkAll 0x616263FF) with msglenLo := 3 }).h =
    ⟨0xA9993E36, 0x4706816A, 0xBA3E2571, 0x7850C26C, 0x9CD0D89D⟩ := by decide +kernel
theorem test_final_two_blocks : (after .final vP4).h =
    ⟨0x84983E44, 0x1C3BD26E, 0xBAAE4AA1, 0xF95129E5, 0xE54670F1⟩ := by decide +kernel
theorem test_encode_lower : (after (.encode .lower)
      { State.reset with h := ⟨0xDA39A3EE, 0x5E6B4B0D, 0x3255BFEF, 0x95601890, 0xAFD80709⟩ }).hex =
    #v[0x64613339, 0x61336565, 0x35653662, 0x34623064, 0x33323535, 0x62666566, 0x39353630, 0x31383930, 0x61666438,
       0x30373039] := by decide +kernel
theorem test_encode_upper : (after (.encode .upper)
      { State.reset with h := ⟨0xA9993E36, 0x4706816A, 0xBA3E2571, 0x7850C26C, 0x9CD0D89D⟩ }).hex =
    #v[0x41393939, 0x33453336, 0x34373036, 0x38313641, 0x42413345, 0x32353731, 0x37383530, 0x43323643, 0x39434430,
       0x44383944] := by decide +kernel
theorem test_sha1_empty : sha1 [] = ⟨0xDA39A3EE, 0x5E6B4B0D, 0x3255BFEF, 0x95601890, 0xAFD80709⟩ := by decide +kernel
theorem test_padTail_one_block_at_55 : ((padTail (List.replicate 55 0x61) 55).length,
    (wordsOf (padTail (List.replicate 55 0x61) 55)).drop 13) = (64, [0x61616180, 0x00000000, 0x000001B8]) := by
  decide +kernel
theorem test_padTail_two_blocks_at_63 : ((padTail (List.replicate 63 0x61) 63).length,
    (wordsOf (padTail (List.replicate 63 0x61) 63)).drop 30) = (128, [0x00000000, 0x000001F8]) := by decide +kernel
theorem test_length_field_wraps : lengthField (2 ^ 61 + 1) = [0, 0, 0, 0, 0, 0, 0, 8] := by decide +kernel

/-! ### Host accesses and faults (V-H), each one step -/

theorem test_read_status : (stepWith [rd32 .status] State.reset).reads = [0x00000000] := by decide
theorem test_read_h0 : (stepWith [rd32 (.h 0)] State.reset).reads = [0x67452301] := by decide
theorem test_read_status_busy : (stepWith [rd32 .status] busyInit).reads = [0x00000001] := by decide
theorem test_write_blk3 : (stepWith [wr32 (.blk 3) 0xDEADBEEF] State.reset).blk[3] = 0xDEADBEEF := by decide
theorem test_byte_write : statusOf (stepWith [.access ⟨0x40, 1, .write 0xAA⟩] State.reset) = 0x00000014 ∧
    (stepWith [.access ⟨0x40, 1, .write 0xAA⟩] State.reset).blk = State.reset.blk := by decide
theorem test_misaligned_read : statusOf (stepWith [.access ⟨0x42, 4, .read⟩] State.reset) = 0x00000014 := by decide
theorem test_unmapped : statusOf (stepWith [.access ⟨0x30, 4, .read⟩] State.reset) = 0x00000024 := by decide
theorem test_write_h0 : statusOf (stepWith [wr32 (.h 0) 0] State.reset) = 0x00000034 ∧
    (stepWith [wr32 (.h 0) 0] State.reset).h.h0 = 0x67452301 := by decide
theorem test_write_status : statusOf (stepWith [wr32 .status 0] State.reset) = 0x00000034 := by decide
theorem test_illegal : statusOf (stepWith [wr32 .cmd 0x00000012] State.reset) = 0x00000054 := by decide
theorem test_sequence : statusOf (stepWith [wr32 .cmd 0x00000002] doneState) = 0x00000066 := by decide
theorem test_busy_write : statusOf (stepWith [wr32 (.blk 0) 1] busyInit) = 0x00000044 ∧
    (stepWith [wr32 (.blk 0) 1] busyInit).blk = State.reset.blk := by decide
theorem test_priority_width : statusOf (stepWith [.access ⟨0x10, 2, .write 0⟩] busyInit) = 0x00000014 := by decide
theorem test_priority_busy : statusOf (stepWith [wr32 .cmd 0x00000012] busyInit) = 0x00000044 := by decide
theorem test_fault_state_write : stepWith [wr32 .cmd 0x00000001] faulted = faulted := by decide
theorem test_core_turn_init : statusOf (stepWith [.core] busyInit) = 0x00000000 ∧
    (stepWith [.core] busyInit).h = IV := by decide
theorem test_reset_leaves_fault : stepWith [.reset] faulted = State.reset := by decide
theorem test_bus_offset : offsetOf (Config.base + 0xFF) = some 0xFF := offsetOf_base_add 0xFF

/-! ### A placed command runs in the very next step -/

theorem test_place_init : step (State.reset.withFetchWord 32 0x1) = exec .init
    { State.reset with pend := some .init, status := { State.reset.status with busy := true } } := rfl
theorem test_place_compress : step (State.reset.withFetchWord 32 0x2) = exec .compress
    { State.reset with pend := some .compress, status := { State.reset.status with busy := true } } := rfl
theorem test_place_final : step (State.reset.withFetchWord 32 0x3) = exec .final
    { State.reset with pend := some .final, status := { State.reset.status with busy := true } } := rfl
theorem test_place_encode : step (State.reset.withFetchWord 32 0x14) = exec (.encode .upper)
    { State.reset with pend := some (.encode .upper), status := { State.reset.status with busy := true } } := rfl

/-! ### The host's pseudo-instructions (30_encoding R72) -/

theorem test_expand_setLen : expand (.setLen 1000) =
    [.access ⟨0x08, 4, .write 0x000003E8⟩, .access ⟨0x0C, 4, .write 0x00000000⟩] := by decide
theorem test_expand_loadTail : (expand (.loadTail [0x61, 0x62, 0x63])).head? =
    some (.access ⟨0x40, 4, .write 0x61626300⟩) ∧ (expand (.loadTail [0x61, 0x62, 0x63])).length = 16 := by decide
theorem test_expand_wait : expand (.wait 1) =
    [.access ⟨0x04, 4, .read⟩, .core, .access ⟨0x04, 4, .read⟩] := by decide

/-! ### Witnesses: the hypotheses of each statement, met by a concrete state -/

theorem witness_ResetStepSetsEveryRegister :
    (busyInit.setSchedule [.reset]).schedule = .reset :: [] ∧ (busyInit.setSchedule [.reset]).pend ≠ none := by decide

theorem witness_InitAfterResetChangesNothing : SameBlock State.reset State.reset := by decide

theorem witness_DecodeAndEncodeAreInverse : Instr.wf (.encode .upper) = true ∧
    decode 0x00000014 = .command (.encode .upper) ∧ decodeTableWord 32 0x14 = some (.encode .upper) := by decide

theorem witness_CoreTurnPerformsThePendingCommand :
    (busyInit.pend = some .init ∧ busyInit.schedule = []) ∧
    ((busyInit.setSchedule [.core]).pend = some .init ∧ (busyInit.setSchedule [.core]).schedule = .core :: []) ∧
    (State.reset.pend = none ∧ State.reset.schedule = []) ∧
    ((State.reset.setSchedule [.core]).pend = none ∧ (State.reset.setSchedule [.core]).schedule = .core :: []) := by
  decide

theorem witness_CommandWriteThenCoreTurnRunsTheDecodedCommand :
    (State.reset.setSchedule [.access ⟨0, 4, .write 0x2⟩, .core]).Idle ∧ decode 0x2 = .command .compress ∧
    (State.reset.setSchedule [.access ⟨0, 4, .write 0x2⟩, .core]).status.done = false ∧
    (State.reset.setSchedule [.access ⟨0, 4, .write 0x2⟩, .core]).schedule =
      .access { off := 0, width := 4, dir := .write 0x2 } :: .core :: [] := by decide

theorem witness_StepRunsThePlacedCommand : decodeTableWord 32 0x3 = some .final := by decide

/-- A command pending, a poll to come, no reset, and a run that does not fault. -/
theorem witness_PendingCommandIsPerformedInTheEnd :
    (busyInit.setSchedule [rd32 .status]).Coherent ∧
    (∀ e ∈ (busyInit.setSchedule [rd32 .status]).schedule, e ≠ .reset) ∧
    (busyInit.setSchedule [rd32 .status]).pend = some .init ∧
    Host.Core.run core 2 (busyInit.setSchedule [rd32 .status]) =
      .next (after .init (stepWith [rd32 .status] busyInit)) ∧
    (after .init (stepWith [rd32 .status] busyInit)).status.fault = false := by
  refine ⟨by decide, by decide, by decide, rfl, by decide⟩

theorem witness_EveryStepKeepsCoherence : busyInit.Coherent ∧ step busyInit = .next (after .init busyInit) := by
  exact ⟨by decide, rfl⟩

theorem witness_InternalCauseIsNeverRaised :
    step (State.reset.setSchedule [wr32 .status 0]) = .next (stepWith [wr32 .status 0] State.reset) ∧
    State.reset.status.cause ≠ .internal := ⟨rfl, by decide⟩

theorem witness_OnlyResetLeavesTheFaultState_reset :
    (faulted.setSchedule [.reset]).Coherent ∧ (faulted.setSchedule [.reset]).status.fault = true ∧
    step (faulted.setSchedule [.reset]) = .next (stepWith [.reset] faulted) ∧
    (faulted.setSchedule [.reset]).ResetNext := ⟨by decide, rfl, rfl, by decide⟩

theorem witness_OnlyResetLeavesTheFaultState_other :
    (faulted.setSchedule [wr32 .cmd 1]).Coherent ∧ (faulted.setSchedule [wr32 .cmd 1]).status.fault = true ∧
    step (faulted.setSchedule [wr32 .cmd 1]) = .next (stepWith [wr32 .cmd 1] faulted) ∧
    ¬ (faulted.setSchedule [wr32 .cmd 1]).ResetNext := ⟨by decide, rfl, rfl, by decide⟩

theorem witness_DigestChangesOnlyByItsWriters :
    step (({ busyInit with h := ⟨0, 0, 0, 0, 0⟩ }).setSchedule [.core]) =
      .next (stepWith [.core] { busyInit with h := ⟨0, 0, 0, 0, 0⟩ }) ∧
    (stepWith [.core] { busyInit with h := ⟨0, 0, 0, 0, 0⟩ }).h ≠ ⟨0, 0, 0, 0, 0⟩ := ⟨rfl, by decide⟩

theorem witness_BlockAndLengthChangeOnlyByHostWrites :
    (step (State.reset.setSchedule [wr32 (.blk 15) 1]) = .next (stepWith [wr32 (.blk 15) 1] State.reset) ∧
      (stepWith [wr32 (.blk 15) 1] State.reset).blk ≠ State.reset.blk) ∧
    (step (State.reset.setSchedule [wr32 .msglenLo 1]) = .next (stepWith [wr32 .msglenLo 1] State.reset) ∧
      (stepWith [wr32 .msglenLo 1] State.reset).msglenLo ≠ State.reset.msglenLo) ∧
    (step (State.reset.setSchedule [wr32 .msglenHi 1]) = .next (stepWith [wr32 .msglenHi 1] State.reset) ∧
      (stepWith [wr32 .msglenHi 1] State.reset).msglenHi ≠ State.reset.msglenHi) :=
  ⟨⟨rfl, by decide⟩, ⟨rfl, by decide⟩, ⟨rfl, by decide⟩⟩

theorem witness_HexChangesOnlyByItsWriters :
    step ({ State.reset with pend := some (.encode .lower) }) =
      .next (after (.encode .lower) { State.reset with pend := some (.encode .lower) }) ∧
    (after (.encode .lower) { State.reset with pend := some (.encode .lower) }).hex ≠ State.reset.hex :=
  ⟨rfl, by decide +kernel⟩

theorem witness_DoneChangesOnlyByFinalInitAndReset :
    step ({ State.reset with pend := some .final }) = .next (after .final { State.reset with pend := some .final }) ∧
    (after .final { State.reset with pend := some .final }).status.done ≠ State.reset.status.done :=
  ⟨rfl, by decide⟩

theorem witness_OperandsAreStableWhileBusy :
    (busyInit.setSchedule [rd32 .status]).Coherent ∧ (busyInit.setSchedule [rd32 .status]).pend ≠ none ∧
    step (busyInit.setSchedule [rd32 .status]) = .next (stepWith [rd32 .status] busyInit) ∧
    (busyInit.setSchedule [rd32 .status]).nextCommand = none ∧ ¬ (busyInit.setSchedule [rd32 .status]).ResetNext :=
  ⟨by decide, by decide, rfl, by decide, by decide⟩

/-- The last BLK and HEX registers and both ends of the unmapped ranges. -/
theorem witness_AddressMapIsTheSpecTable :
    (0x07C : Offset).val = 0x040 + 4 * (15 : Fin 16).val ∧ (0x0A4 : Offset).val = 0x080 + 4 * (9 : Fin 10).val ∧
    (0x024 ≤ (0x03F : Offset).val ∧ (0x03F : Offset).val ≤ 0x03F) ∧ 0x0A8 ≤ (0x0FF : Offset).val := by decide

theorem witness_BusTransactionReachesTheWindowOnlyAtBase :
    (State.reset.setSchedule [.bus (Config.base + (0xFF : Offset).val) 4 .read]).schedule =
      .bus (Config.base + (0xFF : Offset).val) 4 .read :: [] ∧ Config.base + 0xFF < Config.base + 0x100 :=
  ⟨rfl, by omega⟩

theorem witness_ReadReturnsTheRegister :
    (busyInit.setSchedule [rd32 (.hex 9)]).schedule =
      .access { off := Reg.offset (.hex 9), width := 4, dir := .read } :: [] ∧
    (State.reset.setSchedule [rd32 (.h 4)]).schedule =
      .access { off := Reg.offset (.h 4), width := 4, dir := .read } :: [] ∧ State.reset.status.busy = false := by
  decide

theorem witness_HostWriteStoresItsRegisterOnly :
    State.reset.Idle ∧
    (State.reset.setSchedule [wr32 .msglenLo 1]).schedule = .access { off := 0x008, width := 4, dir := .write 1 } :: [] ∧
    (State.reset.setSchedule [wr32 .msglenHi 1]).schedule = .access { off := 0x00C, width := 4, dir := .write 1 } :: [] ∧
    (0x07C : Offset).val = 0x040 + 4 * (15 : Fin 16).val ∧
    (State.reset.setSchedule [wr32 (.blk 15) 1]).schedule =
      .access { off := 0x07C, width := 4, dir := .write 1 } :: [] := by decide

theorem witness_BlockBytesAreBigEndian :
    State.reset.Idle ∧ (State.reset.setSchedule [wr32 (.blk 15) (be32 1 2 3 4)]).schedule =
      .access { off := Reg.offset (.blk 15), width := 4, dir := .write (be32 1 2 3 4) } :: [] := by decide

theorem witness_CommandWriteFollowsItsThreeCases :
    doneState.Idle ∧ (doneState.setSchedule [wr32 .cmd 3]).schedule =
      .access { off := 0, width := 4, dir := .write 3 } :: [] ∧ decode 3 = .command .final ∧
      doneState.status.done = true ∧ decode 0x20 = .illegal .reservedBits ∧ decode 4 = .command (.encode .lower) := by
  decide

/-- A fault entry while busy (a write of BLK_W0) and one while idle (an illegal command word). -/
theorem witness_EveryFaultIsEnteredByOneRule :
    busyInit.status.fault = false ∧
    step (busyInit.setSchedule [wr32 (.blk 0) 1]) = .next (stepWith [wr32 (.blk 0) 1] busyInit) ∧
    (stepWith [wr32 (.blk 0) 1] busyInit).status.fault = true ∧
    State.reset.status.fault = false ∧
    step (State.reset.setSchedule [wr32 .cmd 0]) = .next (stepWith [wr32 .cmd 0] State.reset) ∧
    (stepWith [wr32 .cmd 0] State.reset).status.fault = true := by
  refine ⟨by decide, rfl, by decide, by decide, rfl, by decide⟩

theorem witness_WrongWidthOrAlignmentRaisesBadAccess :
    busyInit.status.fault = false ∧
    (busyInit.setSchedule [.access ⟨0x00, 2, .write 0⟩]).schedule = .access ⟨0x00, 2, .write 0⟩ :: [] ∧
    ((⟨0x00, 2, .write 0⟩ : Access).width ≠ 4) ∧ ((⟨0xFF, 4, .read⟩ : Access).off.val % 4 ≠ 0) := by decide

theorem witness_UnmappedOffsetRaisesUnmapped :
    State.reset.status.fault = false ∧
    (State.reset.setSchedule [.access ⟨0x24, 4, .read⟩]).schedule = .access ⟨0x24, 4, .read⟩ :: [] ∧
    (0x24 : Offset).val % 4 = 0 ∧ (0x024 ≤ (0x24 : Offset).val ∧ (0x24 : Offset).val ≤ 0x03F) ∧
    (0xFC : Offset).val % 4 = 0 ∧ 0x0A8 ≤ (0xFC : Offset).val := by decide

theorem witness_ReadOnlyWriteRaisesWriteRo :
    State.reset.status.fault = false ∧
    (State.reset.setSchedule [.access ⟨0xA4, 4, .write 0⟩]).schedule = .access ⟨0xA4, 4, .write 0⟩ :: [] ∧
    (0xA4 : Offset).val % 4 = 0 ∧ (0x080 ≤ (0xA4 : Offset).val ∧ (0xA4 : Offset).val ≤ 0x0A4) ∧
    (0x010 ≤ (0x20 : Offset).val ∧ (0x20 : Offset).val ≤ 0x020) := by decide

theorem witness_WriteWhileBusyRaisesBusyWrite :
    busyInit.status.fault = false ∧ busyInit.status.busy = true ∧
    (busyInit.setSchedule [.access ⟨0x7C, 4, .write 0⟩]).schedule = .access ⟨0x7C, 4, .write 0⟩ :: [] ∧
    (0x7C : Offset).val % 4 = 0 ∧ (0x040 ≤ (0x7C : Offset).val ∧ (0x7C : Offset).val ≤ 0x07C) := by decide

theorem witness_IllegalWordRaisesIllegalCmd :
    State.reset.Idle ∧ (State.reset.setSchedule [wr32 .cmd 0]).schedule =
      .access { off := 0, width := 4, dir := .write 0 } :: [] ∧
    (0x00000000 : Word).toNat % 16 = 0 ∧ 5 ≤ (0x00000005 : Word).toNat % 16 ∧ (0x00000021 : Word).toNat / 32 ≠ 0 ∧
    ((0x00000011 : Word).toNat / 16 % 2 = 1 ∧ (0x00000011 : Word).toNat % 16 = 1) := by decide

theorem witness_CompressionAfterFinalRaisesSequence :
    doneState.Idle ∧ doneState.status.done = true ∧ (doneState.setSchedule [wr32 .cmd 2]).schedule =
      .access { off := 0, width := 4, dir := .write 0x00000002 } :: [] := by decide

theorem witness_CauseIsTheFirstInTheOrderOfChecks :
    busyInit.status.fault = false ∧ busyInit.status.cause = .noFault ∧
    (busyInit.setSchedule [wr32 .cmd 0x12]).schedule = .access ⟨0, 4, .write 0x12⟩ :: [] := by decide

theorem witness_FaultStateAccessChangesNothing :
    faulted.Coherent ∧ faulted.status.fault = true ∧
    (faulted.setSchedule [.access ⟨0x10, 4, .read⟩]).schedule = .access ⟨0x10, 4, .read⟩ :: [] ∧
    (0x10 : Offset) = Reg.offset (.h 0) := by decide

theorem witness_RotlMovesEveryBit : 1 ≤ 31 ∧ 31 ≤ 31 ∧ 31 < 32 := by decide

/-- The sequences W and V exist for every state: the model's own schedule and rounds. -/
theorem witness_CompressFollowsTheRoundRecurrence (s : State) :
    ∃ (W : Nat → Word) (V : Nat → WorkingVars),
      (∀ i : Fin 16, W i.val = s.blk[i]) ∧
      (∀ t, 16 ≤ t → t ≤ 79 → W t = rotl (W (t - 3) ^^^ W (t - 8) ^^^ W (t - 14) ^^^ W (t - 16)) 1) ∧
      V 0 = { a := s.h.h0, b := s.h.h1, c := s.h.h2, d := s.h.h3, e := s.h.h4 } ∧
      (∀ t, t ≤ 79 → V (t + 1) =
        { a := rotl (V t).a 5
            + (if t ≤ 19 then ((V t).b &&& (V t).c) ||| (~~~(V t).b &&& (V t).d)
              else if t ≤ 39 then (V t).b ^^^ (V t).c ^^^ (V t).d
              else if t ≤ 59 then ((V t).b &&& (V t).c) ||| ((V t).b &&& (V t).d) ||| ((V t).c &&& (V t).d)
              else (V t).b ^^^ (V t).c ^^^ (V t).d)
            + (V t).e
            + (if t ≤ 19 then 0x5A827999 else if t ≤ 39 then 0x6ED9EBA1 else if t ≤ 59 then 0x8F1BBCDC
              else 0xCA62C1D6)
            + W t
          b := (V t).a
          c := rotl (V t).b 30
          d := (V t).c
          e := (V t).d }) := by
  have hl := s.blkBytes_length
  have hlen := messageSchedule_length _ hl
  refine ⟨fun t => (messageSchedule s.blkBytes).getD t 0,
    fun n => rounds 0 ((messageSchedule s.blkBytes).take n) (seed s.h), ?_, ?_, rfl, ?_⟩
  · intro i
    simp only [messageSchedule_first _ hl i.val i.isLt, State.wordsOf_blkBytes]
    simp [List.getD]
  · intro t h16 h79
    exact messageSchedule_recurrence _ hl t h16 (by omega)
  · intro t h79
    simp only [rounds_take_succ _ _ t (show t < (messageSchedule s.blkBytes).length by omega), shaRound, quadrant]
    repeat' split
    all_goals simp [roundFunction, K]

theorem witness_PaddedTailLayout : ([] : List Byte).length ≤ 63 ∧ (List.replicate 55 (0x61 : Byte)).length ≤ 55 ∧
    (List.replicate 63 (0x61 : Byte)).length ≤ 63 := by decide

theorem witness_FinalIgnoresTheUnusedBlockBytes :
    State.reset.h = (blkAll 1).h ∧ State.reset.msglenLo = (blkAll 1).msglenLo ∧
    State.reset.msglenHi = (blkAll 1).msglenHi ∧
    (∀ j : Fin 64, j.val < State.reset.msglen % 64 → State.reset.blkByte j = (blkAll 1).blkByte j) :=
  ⟨rfl, rfl, rfl, by decide⟩

/-- The empty message: FINAL alone. -/
theorem witness_HostDutyGivesTheSha1Digest_empty :
    ∃ t, Host.Core.run core 2 (State.reset.setSchedule [wr32 .cmd 3, .core]) = .next t ∧
      MeetsDuty [] (performed 2 (State.reset.setSchedule [wr32 .cmd 3, .core])) ∧ t.status.fault = false ∧
      (State.reset.setSchedule [wr32 .cmd 3, .core]).h =
        { h0 := 0x67452301, h1 := 0xEFCDAB89, h2 := 0x98BADCFE, h3 := 0x10325476, h4 := 0xC3D2E1F0 } ∧
      ∀ e ∈ (State.reset.setSchedule [wr32 .cmd 3, .core]).schedule, e ≠ .reset :=
  ⟨_, rfl, ⟨[], _, rfl, rfl, by decide, by decide⟩, rfl, rfl, by decide⟩

/-- One whole block and an empty tail (program P3's shape). -/
theorem witness_HostDutyGivesTheSha1Digest_block :
    ∃ t, Host.Core.run core 4 ({ (blkAll 0x61616161) with
        msglenLo := 64, schedule := [wr32 .cmd 2, .core, wr32 .cmd 3, .core] }) = .next t ∧
      MeetsDuty (List.replicate 64 0x61) (performed 4 { (blkAll 0x61616161) with
        msglenLo := 64, schedule := [wr32 .cmd 2, .core, wr32 .cmd 3, .core] }) ∧ t.status.fault = false :=
  ⟨_, rfl, ⟨[_], _, rfl, by decide +kernel, by decide, by decide +kernel⟩, rfl⟩

theorem witness_CommandsChangeOnlyWhatTheTableSays :
    exec .compress State.reset = .next (after .compress State.reset) := rfl

end Sys2Proof.Tests.Slice0
end

/-! Rotation (00_scope R11): for the amounts the spec admits, `rotl` is the library's `rotateLeft`. A bit below
`32 - n` moves up by `n`; a bit from there on wraps round to the low end. -/

namespace Sys2Proof.Machine

theorem rotl_eq_rotateLeft (x : Word) {n : Nat} (hn : n < 32) : rotl x n = x.rotateLeft n := by
  rw [BitVec.rotateLeft_def, Nat.mod_eq_of_lt hn, rotl]

theorem getLsbD_rotl_of_no_wrap (x : Word) {n i : Nat} (h : i + n < 32) :
    (rotl x n).getLsbD (i + n) = x.getLsbD i := by
  rw [rotl_eq_rotateLeft x (by omega), BitVec.getLsbD_rotateLeft_of_le (by omega)]
  simp [h]

theorem getLsbD_rotl_of_wrap (x : Word) {n i : Nat} (hn : n < 32) (hi : i < 32) (h : 32 ≤ i + n) :
    (rotl x n).getLsbD (i + n - 32) = x.getLsbD i := by
  have hlow : i + n - 32 < n := by omega
  have hback : 32 - n + (i + n - 32) = i := by omega
  rw [rotl_eq_rotateLeft x hn, BitVec.getLsbD_rotateLeft_of_le hn]
  simp [hlow, hback]

/-- Settles O40: by whether the moved bit passes the top of the word. -/
theorem rotlMovesEveryBit : Obligations.RotlMovesEveryBit := by
  intro x n i _ hn hi
  rcases Nat.lt_or_ge (i + n) 32 with h | h
  · rw [Nat.mod_eq_of_lt h, getLsbD_rotl_of_no_wrap x h]
  · rw [Nat.mod_eq_sub_mod h, Nat.mod_eq_of_lt (by omega), getLsbD_rotl_of_wrap x (by omega) hi h]

end Sys2Proof.Machine

/-! What a step that answers `t` has done to one piece of the state, for the rules of 10_state on who may change what. -/

namespace Sys2Proof.Machine

/-! ### Inversion of a completed step -/

/-- `step_cases` for a step whose next state is known. -/
theorem step_next_cases {s t : State} (h : step s = .next t) :
    (∃ i, s.nextCommand = some i ∧ exec i (s.setSchedule s.schedule.tail) = .next t) ∨
    (s.ResetNext ∧ t = resetBlock (s.setSchedule s.schedule.tail)) ∨
    (∃ a, s.nextAccess = some a ∧ t = hostAccess a (s.setSchedule s.schedule.tail)) ∨
    t = s.setSchedule s.schedule.tail := by
  rcases step_cases s with ⟨i, hi, _, hs⟩ | ⟨_, hr, hs⟩ | ⟨_, _, a, ha, hs⟩ | ⟨_, _, _, hs⟩ <;> rw [hs] at h
  · exact .inl ⟨i, hi, h⟩
  · cases h; exact .inr (.inl ⟨hr, rfl⟩)
  · cases h; exact .inr (.inr (.inl ⟨a, ha, rfl⟩))
  · cases h; exact .inr (.inr (.inr rfl))

/-- `t` agrees with `s` on BLK and MSGLEN, the operands only the host writes (10_state R18, R20). -/
abbrev SameOperands (s t : State) : Prop :=
  t.blk = s.blk ∧ t.msglenLo = s.msglenLo ∧ t.msglenHi = s.msglenHi

/-! ### What a command does to STATUS, PEND, BLK, MSGLEN, HEX and DONE -/

theorem exec_next_status {i : Instr} {s t : State} (h : exec i s = .next t) :
    t.pend = none ∧ t.status.busy = false ∧ t.status.fault = s.status.fault ∧ t.status.cause = s.status.cause := by
  obtain ⟨u, hu, hpend, hbusy, _, _, _, hfault, hcause, _⟩ := exec_spec i s
  cases hu.symm.trans h
  exact ⟨hpend, hbusy, hfault, hcause⟩

theorem exec_next_operands {i : Instr} {s t : State} (h : exec i s = .next t) : SameOperands s t := by
  obtain ⟨u, hu, _, _, hblk, hlo, hhi, _⟩ := exec_spec i s
  cases hu.symm.trans h
  exact ⟨hblk, hlo, hhi⟩

/-- Of the commands only ENCODE writes HEX (30_encoding R67). -/
theorem exec_next_hex {i : Instr} {s t : State} (h : exec i s = .next t) :
    (∃ c, i = .encode c) ∨ t.hex = s.hex := by
  cases i with
  | encode c => exact .inl ⟨c, rfl⟩
  | init => rw [exec_init] at h; cases h; simp
  | compress => rw [exec_compress] at h; cases h; simp
  | final => rw [exec_final] at h; cases h; simp

/-- Of the commands FINAL sets DONE, INIT clears it, and the others keep it (10_state R25). -/
theorem exec_next_done {i : Instr} {s t : State} (h : exec i s = .next t) :
    (i = .final ∧ t.status.done = true) ∨ (i = .init ∧ t.status.done = false) ∨ t.status.done = s.status.done := by
  cases i with
  | final => rw [exec_final] at h; cases h; simp
  | init => rw [exec_init] at h; cases h; simp
  | compress => rw [exec_compress] at h; cases h; simp
  | encode c => rw [exec_encode] at h; cases h; simp

/-! ### What a host access does to BLK, MSGLEN, HEX and DONE -/

/-- BLK and MSGLEN survive a host access but for one data write while idle (44_host_access R127). -/
theorem hostAccess_operands (a : Access) (s : State) :
    SameOperands s (hostAccess a s) ∨
    (s.Idle ∧ ∃ i v, a = { off := Reg.offset (.blk i), width := 4, dir := .write v } ∧ hostAccess a s = s.setBlk i v) ∨
    (s.Idle ∧ ∃ v, a = { off := Reg.offset .msglenLo, width := 4, dir := .write v } ∧ hostAccess a s = s.setMsglenLo v) ∨
    (s.Idle ∧ ∃ v, a = { off := Reg.offset .msglenHi, width := 4, dir := .write v } ∧
      hostAccess a s = s.setMsglenHi v) := by
  rcases hostAccess_cases a s with hsame | ⟨_, _, _, _, hfault⟩ | hblk | hlo | hhi | ⟨_, _, _, _, _, _, h⟩
  · obtain ⟨_, hblk, hlo, hhi, _⟩ := hsame
    exact .inl ⟨hblk, hlo, hhi⟩
  · obtain ⟨_, _, _, hblk, hlo, hhi, _⟩ := hfault
    exact .inl ⟨hblk, hlo, hhi⟩
  · exact .inr (.inl hblk)
  · exact .inr (.inr (.inl hlo))
  · exact .inr (.inr (.inr hhi))
  · exact .inl (by simp [SameOperands, h])

/-- A host access loses HEX only when it raises a fault while BUSY = 1 (60_exceptions R157). -/
theorem hostAccess_hex (a : Access) (s : State) :
    (hostAccess a s).hex = s.hex ∨
    (s.status.busy = true ∧ s.status.fault = false ∧ (hostAccess a s).status.fault = true) := by
  rcases hostAccess_cases a s with
    hsame | ⟨hnf, _, _, _, hfault⟩ | ⟨_, _, _, _, h⟩ | ⟨_, _, _, h⟩ | ⟨_, _, _, h⟩ | ⟨_, _, _, _, _, _, h⟩
  · obtain ⟨_, _, _, _, hhex, _⟩ := hsame
    exact .inl hhex
  · obtain ⟨hf, _, _, _, _, _, _, _, hkeep⟩ := hfault
    cases hb : s.status.busy with
    | true => exact .inr ⟨rfl, hnf, hf⟩
    | false => exact .inl (hkeep hb).2.1
  all_goals exact .inl (by simp [h])

/-- No host access changes DONE: fault entry keeps it and issuing a command does not touch it (10_state R25). -/
@[simp] theorem hostAccess_done (a : Access) (s : State) : (hostAccess a s).status.done = s.status.done := by
  rcases hostAccess_cases a s with
    hsame | ⟨_, _, _, _, hfault⟩ | ⟨_, _, _, _, h⟩ | ⟨_, _, _, h⟩ | ⟨_, _, _, h⟩ | ⟨_, _, _, _, _, _, h⟩
  · obtain ⟨_, _, _, _, _, hstatus, _⟩ := hsame
    rw [hstatus]
  · obtain ⟨_, _, hdone, _⟩ := hfault
    exact hdone
  all_goals simp [h]

/-! ### Coherence of STATUS and PEND -/

/-- Coherence looks at STATUS and PEND only. -/
theorem State.Coherent.of_eq {s t : State} (hc : s.Coherent) (hstatus : t.status = s.status) (hpend : t.pend = s.pend) :
    t.Coherent := by
  simpa only [State.Coherent, hstatus, hpend] using hc

theorem resetBlock_coherent (s : State) : (resetBlock s).Coherent := by simp [State.Coherent]

/-- A command ends with nothing pending and BUSY = 0, and touches neither FAULT nor CAUSE (44_host_access R130). -/
theorem exec_keeps_coherence {i : Instr} {s t : State} (hc : s.Coherent) (h : exec i s = .next t) : t.Coherent := by
  obtain ⟨_, hcause, hinternal, _⟩ := hc
  obtain ⟨hpend, hbusy, hfault, hcause'⟩ := exec_next_status h
  rw [← hfault, ← hcause'] at hcause
  rw [← hcause'] at hinternal
  simp [State.Coherent, hpend, hbusy, hcause, hinternal]

/-- Fault entry leaves nothing pending: a busy block abandons its command, an idle coherent one had none
(60_exceptions R157). -/
theorem FaultEntered.keeps_coherence {c : Cause} {s t : State} (hc : s.Coherent) (hno : c ≠ .noFault)
    (hint : c ≠ .internal) (h : FaultEntered c s t) : t.Coherent := by
  obtain ⟨hbusy, _⟩ := hc
  obtain ⟨hf, hcause, _, _, _, _, hidle, habandon, hkeep⟩ := h
  have hpend : t.pend = none := by
    cases hb : s.status.busy with
    | true => exact habandon hb
    | false => rw [(hkeep hb).2.2]; simpa [hb] using hbusy
  simp [State.Coherent, hf, hcause, hidle, hpend, hno, hint]

/-- Issue makes a command pending outside the fault state and guards COMPRESS and FINAL by DONE (44_host_access R129). -/
theorem setPend_setBusy_coherent {i : Instr} {s : State} (hc : s.Coherent) (hf : s.status.fault = false)
    (hguard : changesDigest i = true → s.status.done = false) : ((s.setPend (some i)).setBusy true).Coherent := by
  obtain ⟨_, hcause, _⟩ := hc
  have hno : s.status.cause = .noFault := by simpa [hf] using hcause
  have hdone : i = .compress ∨ i = .final → s.status.done = false := by
    rintro (rfl | rfl) <;> exact hguard rfl
  simpa [State.Coherent, hf, hno] using hdone

theorem hostAccess_keeps_coherence (a : Access) {s : State} (hc : s.Coherent) : (hostAccess a s).Coherent := by
  rcases hostAccess_cases a s with
    hsame | ⟨_, c, hno, hint, hfault⟩ | ⟨_, _, _, _, h⟩ | ⟨_, _, _, h⟩ | ⟨_, _, _, h⟩ | ⟨⟨hf, _⟩, _, _, _, _, hguard, h⟩
  · obtain ⟨_, _, _, _, _, hstatus, hpend⟩ := hsame
    exact hc.of_eq hstatus hpend
  · exact hfault.keeps_coherence hc hno hint
  · exact hc.of_eq (by simp [h]) (by simp [h])
  · exact hc.of_eq (by simp [h]) (by simp [h])
  · exact hc.of_eq (by simp [h]) (by simp [h])
  · rw [h]; exact setPend_setBusy_coherent hc hf hguard

/-- Settles O14, by the kind of step. -/
theorem everyStepKeepsCoherence : Obligations.EveryStepKeepsCoherence := by
  intro s t hc h
  have hc' : (s.setSchedule s.schedule.tail).Coherent := hc.of_eq rfl rfl
  rcases step_next_cases h with ⟨_, _, hexec⟩ | ⟨_, rfl⟩ | ⟨a, _, rfl⟩ | rfl
  · exact exec_keeps_coherence hc' hexec
  · exact resetBlock_coherent _
  · exact hostAccess_keeps_coherence a hc'
  · exact hc'

/-- Settles O13: the reset state is what RESET makes of it. -/
theorem resetStateIsCoherent : Obligations.ResetStateIsCoherent := resetBlock_coherent State.reset

/-! ### Who may change BLK, MSGLEN, HEX and DONE -/

/-- Settles O18: a command and fault entry keep all three, and a data write stores into its own register only. -/
theorem blockAndLengthChangeOnlyByHostWrites : Obligations.BlockAndLengthChangeOnlyByHostWrites := by
  intro s t h
  rcases step_next_cases h with ⟨_, _, hexec⟩ | ⟨hr, _⟩ | ⟨a, ha, rfl⟩ | rfl
  · obtain ⟨hblk, hlo, hhi⟩ := exec_next_operands hexec
    exact ⟨absurd hblk, absurd hlo, absurd hhi⟩
  · exact ⟨fun _ => .inl hr, fun _ => .inl hr, fun _ => .inl hr⟩
  · rcases hostAccess_operands a (s.setSchedule s.schedule.tail) with
      ⟨hblk, hlo, hhi⟩ | ⟨hidle, i, v, rfl, hset⟩ | ⟨hidle, v, rfl, hset⟩ | ⟨hidle, v, rfl, hset⟩
    · exact ⟨absurd hblk, absurd hlo, absurd hhi⟩
    · rw [hset]
      exact ⟨fun _ => .inr ⟨hidle, i, v, ha, rfl⟩, absurd rfl, absurd rfl⟩
    · rw [hset]
      exact ⟨absurd rfl, fun _ => .inr ⟨hidle, v, ha, rfl⟩, absurd rfl⟩
    · rw [hset]
      exact ⟨absurd rfl, absurd rfl, fun _ => .inr ⟨hidle, v, ha, rfl⟩⟩
  · exact ⟨absurd rfl, absurd rfl, absurd rfl⟩

/-- Settles O19, by the kind of step. -/
theorem hexChangesOnlyByItsWriters : Obligations.HexChangesOnlyByItsWriters := by
  intro s t h hne
  rcases step_next_cases h with ⟨i, hi, hexec⟩ | ⟨hr, _⟩ | ⟨a, _, rfl⟩ | rfl
  · rcases exec_next_hex hexec with ⟨c, rfl⟩ | hsame
    · exact .inr (.inl ⟨c, hi⟩)
    · exact absurd hsame hne
  · exact .inl hr
  · rcases hostAccess_hex a (s.setSchedule s.schedule.tail) with hsame | hfault
    · exact absurd hsame hne
    · exact .inr (.inr hfault)
  · exact absurd rfl hne

/-- Settles O20, by the kind of step. -/
theorem doneChangesOnlyByFinalInitAndReset : Obligations.DoneChangesOnlyByFinalInitAndReset := by
  intro s t h hne
  rcases step_next_cases h with ⟨i, hi, hexec⟩ | ⟨hr, rfl⟩ | ⟨a, _, rfl⟩ | rfl
  · rcases exec_next_done hexec with ⟨rfl, hdone⟩ | ⟨rfl, hdone⟩ | hsame
    · exact .inl ⟨hi, hdone⟩
    · exact .inr ⟨.inl hi, hdone⟩
    · exact absurd hsame hne
  · exact .inr ⟨.inr hr, by simp⟩
  · exact absurd (hostAccess_done a _) hne
  · exact absurd rfl hne

/-! ### The reset state and the bits of STATUS -/

/-- Settles O2: each reset value is the literal the spec gives. -/
theorem resetStateHoldsTheSpecValues : Obligations.ResetStateHoldsTheSpecValues :=
  ⟨rfl, fun i => Vector.getElem_replicate i.isLt, rfl, rfl, fun k => Vector.getElem_replicate k.isLt,
    rfl, rfl, rfl, rfl⟩

theorem bitWord_getLsbD (b : Bool) (i : Nat) : (bitWord b).getLsbD i = (decide (i = 0) && b) := by
  cases b <;> simp [bitWord]

theorem bitWord_shiftLeft_getLsbD (b : Bool) (k : Nat) {i : Nat} (hi : i < 32) :
    (bitWord b <<< k).getLsbD i = (decide (i = k) && b) := by
  have hbit : (k ≤ i ∧ i - k = 0) ↔ i = k := by omega
  simp only [BitVec.getLsbD_shiftLeft, bitWord_getLsbD, hi, ← hbit, decide_true, Bool.true_and, ← decide_not,
    Nat.not_lt, Bool.decide_and, Bool.and_assoc]

/-- The value of STATUS bit by bit, as the fields are shifted into it (44_host_access R125). -/
theorem statusWord_getLsbD (st : Status) {i : Nat} (hi : i < 32) :
    (statusWord st).getLsbD i =
      (decide (4 ≤ i) && st.cause.code.getLsbD (i - 4) || decide (i = 2) && st.fault ||
        decide (i = 1) && st.done || decide (i = 0) && st.busy) := by
  have hcode : (st.cause.code.setWidth 32 <<< 4).getLsbD i = (decide (4 ≤ i) && st.cause.code.getLsbD (i - 4)) := by
    have hsub : i - 4 < 32 := by omega
    simp only [BitVec.getLsbD_shiftLeft, BitVec.getLsbD_setWidth, hi, hsub, decide_true, Bool.true_and, ← decide_not,
      Nat.not_lt]
  simp only [statusWord, BitVec.getLsbD_or, hcode, bitWord_shiftLeft_getLsbD _ _ hi, bitWord_getLsbD]

/-- From bit 4 up STATUS holds the cause code alone. -/
theorem statusWord_getLsbD_four_add (st : Status) {i : Nat} (hi : i < 28) :
    (statusWord st).getLsbD (4 + i) = st.cause.code.getLsbD i := by
  rw [statusWord_getLsbD st (by omega)]
  have hfault : 4 + i ≠ 2 := by omega
  have hdone : 4 + i ≠ 1 := by omega
  simp [hfault, hdone]

/-- Settles O25, bit by bit: the cause code has three bits, so those from bit 7 up are 0. -/
theorem statusReadsItsFieldsAndZeroElsewhere : Obligations.StatusReadsItsFieldsAndZeroElsewhere := by
  intro st
  have low {i : Nat} (hi : i < 32) := statusWord_getLsbD st hi
  refine ⟨?_, ?_, ?_, ?_, ?_, ?_⟩
  · rw [low (by decide)]; simp
  · rw [low (by decide)]; simp
  · rw [low (by decide)]; simp
  · rw [low (by decide)]; simp
  · apply BitVec.eq_of_getLsbD_eq
    intro i hi
    rw [BitVec.getLsbD_extractLsb', statusWord_getLsbD_four_add st (by omega)]
    simp [hi]
  · apply BitVec.eq_of_getLsbD_eq
    intro i hi
    have hbit : 7 + i = 4 + (3 + i) := by omega
    rw [BitVec.getLsbD_extractLsb', hbit, statusWord_getLsbD_four_add st (by omega)]
    simp

end Sys2Proof.Machine

/-! The register window (20_memory): the address map, the window on the host bus, the byte order of BLK, and what the
host cannot do to the block while a command is pending. -/

namespace Sys2Proof.Machine

/-! ### The address map and the window on the host bus -/

/-- Settles O22: each register is found at its own offset, and none in the unmapped ranges. -/
theorem addressMapIsTheSpecTable : Obligations.AddressMapIsTheSpecTable := by
  refine ⟨regAt_offset .cmd, regAt_offset .status, regAt_offset .msglenLo, regAt_offset .msglenHi,
    regAt_offset (.h 0), regAt_offset (.h 1), regAt_offset (.h 2), regAt_offset (.h 3), regAt_offset (.h 4), ?_, ?_, ?_⟩
  · intro i o ho
    have hoff : o = Reg.offset (.blk i) := Fin.ext ho
    rw [hoff, regAt_offset]
  · intro k o ho
    have hoff : o = Reg.offset (.hex k) := Fin.ext ho
    rw [hoff, regAt_offset]
  · exact fun o => (regAt_eq_none_iff o).mpr

theorem step_of_access {s : State} {a : Access} {rest : List Event} (h : s.schedule = .access a :: rest) :
    step s = .next (hostAccess a (s.setSchedule rest)) := by
  simp [step, h, perform]

theorem step_of_bus {s : State} {addr width : Nat} {dir : Dir} {rest : List Event}
    (h : s.schedule = .bus addr width dir :: rest) :
    step s = .next (busAccess addr width dir (s.setSchedule rest)) := by
  simp [step, h, perform]

/-- A transaction at BASE + o is the access at o (20_memory R43). -/
@[simp] theorem busAccess_base_add (o : Offset) (width : Nat) (dir : Dir) (s : State) :
    busAccess (Config.base + o.val) width dir s = hostAccess { off := o, width := width, dir := dir } s := by
  simp [busAccess]

/-- A transaction outside the window is another target's (20_memory R43). -/
theorem busAccess_of_outside {addr : Nat} (h : addr < Config.base ∨ Config.base + 0xFF < addr) (width : Nat)
    (dir : Dir) (s : State) : busAccess addr width dir s = s := by
  simp [busAccess, (offsetOf_eq_none_iff addr).mpr h]

/-- Settles O23: by whether the address lies in the window. -/
theorem busTransactionReachesTheWindowOnlyAtBase : Obligations.BusTransactionReachesTheWindowOnlyAtBase := by
  intro s addr width dir rest h
  constructor
  · rintro o rfl
    rw [step_of_bus h, busAccess_base_add, step_of_access rfl]
    rfl
  · intro hout
    rw [step_of_bus h, busAccess_of_outside hout]
    rfl

/-! ### The byte order of BLK -/

/-- An idle block takes a write of a writable register as `hostWrite` has it (44_host_access R124). -/
theorem hostAccess_write_of_idle {s : State} (hidle : s.Idle) {r : Reg} (hr : isReadOnly r = false) (v : Word) :
    hostAccess { off := r.offset, width := 4, dir := .write v } s = hostWrite r v s := by
  obtain ⟨hf, hb⟩ := hidle
  simp [hostAccess, regAccess, hf, hb, hr]

/-- Storing a word into BLK_Wi replaces the block bytes 4i..4i+3 by the word's (10_state R19). -/
theorem State.setBlk_blkByte (s : State) (i : Fin 16) (v : Word) (j : Fin 64) :
    (s.setBlk i v).blkByte j = if j.val / 4 = i.val then byteOfWord v (j.val % 4) else s.blkByte j := by
  by_cases hj : j.val / 4 = i.val
  · simp [State.blkByte, hj]
  · simp [State.blkByte, hj, Vector.getElem_set_ne _ _ (Ne.symm hj)]

/-- The block bytes after a big-endian store of four message bytes (20_memory R47). -/
theorem State.setBlk_be32_blkByte (s : State) (i : Fin 16) (b0 b1 b2 b3 : Byte) (j : Fin 64) :
    (s.setBlk i (be32 b0 b1 b2 b3)).blkByte j =
      (if j.val = 4 * i.val then b0 else if j.val = 4 * i.val + 1 then b1 else if j.val = 4 * i.val + 2 then b2
        else if j.val = 4 * i.val + 3 then b3 else s.blkByte j) := by
  obtain ⟨hb0, hb1, hb2, hb3⟩ := byteOfWord_be32 b0 b1 b2 b3
  rw [State.setBlk_blkByte]
  by_cases hj : j.val / 4 = i.val
  · have hbyte : j.val = 4 * i.val ∨ j.val = 4 * i.val + 1 ∨ j.val = 4 * i.val + 2 ∨ j.val = 4 * i.val + 3 := by omega
    rcases hbyte with h | h | h | h <;> simp [h, Nat.mul_add_div, hb0, hb1, hb2, hb3]
  · have hother : j.val ≠ 4 * i.val ∧ j.val ≠ 4 * i.val + 1 ∧ j.val ≠ 4 * i.val + 2 ∧ j.val ≠ 4 * i.val + 3 := by omega
    simp [hj, hother]

/-- Settles O28: the write is the store of the word, and the store's bytes are the four written. -/
theorem blockBytesAreBigEndian : Obligations.BlockBytesAreBigEndian := by
  intro s i b0 b1 b2 b3 rest hidle h
  have hidle' : (s.setSchedule rest).Idle := hidle
  refine ⟨(s.setSchedule rest).setBlk i (be32 b0 b1 b2 b3), ?_, fun j => ?_⟩
  · rw [step_of_access h, hostAccess_write_of_idle hidle' rfl]
    rfl
  · exact State.setBlk_be32_blkByte (s.setSchedule rest) i b0 b1 b2 b3 j

/-! ### While a command is pending -/

/-- While BUSY = 1 the host can only read or raise a fault (44_host_access R132). -/
theorem hostAccess_of_busy (a : Access) {s : State} (hb : s.status.busy = true) :
    SameBlock s (hostAccess a s) ∨
    (s.status.fault = false ∧ (hostAccess a s).status.fault = true ∧ (hostAccess a s).pend = none) := by
  have hnotIdle : ¬ s.Idle := by simp [State.Idle, hb]
  rcases hostAccess_cases a s with
    hsame | ⟨hnf, _, _, _, hfault⟩ | ⟨hidle, _⟩ | ⟨hidle, _⟩ | ⟨hidle, _⟩ | ⟨hidle, _⟩
  · exact .inl hsame
  · obtain ⟨hf, _, _, _, _, _, _, habandon, _⟩ := hfault
    exact .inr ⟨hnf, hf, habandon hb⟩
  all_goals exact absurd hidle hnotIdle

/-- Settles O21: coherence makes the pending command a busy block, which a host access cannot write. -/
theorem operandsAreStableWhileBusy : Obligations.OperandsAreStableWhileBusy := by
  intro s t hc hpend hstep hcmd hreset
  obtain ⟨hbusy, _⟩ := hc
  have hb : (s.setSchedule s.schedule.tail).status.busy = true := hbusy.mpr hpend
  rcases step_next_cases hstep with ⟨i, hi, _⟩ | ⟨hr, _⟩ | ⟨a, _, rfl⟩ | rfl
  · simp [hcmd] at hi
  · exact absurd hr hreset
  · exact hostAccess_of_busy a hb
  · exact .inl ⟨rfl, rfl, rfl, rfl, rfl, rfl, rfl⟩

end Sys2Proof.Machine

/-! Command words (30_encoding R61–R66): a word is its three fields, so a word that decodes to a command has that command's
fields and is its encoding. -/

namespace Sys2Proof.Machine

/-- The fields RSV, U and OP cover the word (30_encoding R61). -/
theorem fields_append (w : Word) : (fieldRsv w ++ fieldU w : BitVec 28) ++ fieldOp w = w := by
  rw [fieldRsv, fieldU, fieldOp, BitVec.extractLsb'_append_extractLsb'_eq_extractLsb' (by rfl),
    BitVec.extractLsb'_append_extractLsb'_eq_extractLsb' (by rfl), BitVec.extractLsb'_eq_self]

/-- A word with a command's fields is the command's encoding. -/
theorem encode_eq_of_fields {w : Word} {i : Instr} (hrsv : fieldRsv w = 0) (hu : fieldU w = uOf i)
    (hop : fieldOp w = opOf i) : encode i = w := by
  rw [← fields_append w, hrsv, hu, hop, encode]

/-- A command that takes no letter case decodes only with U = 0, which is its U field (30_encoding R63). -/
theorem fields_of_decodePlain {w : Word} {i j : Instr} (h : decodePlain (fieldU w) j = .command i)
    (hop : fieldOp w = opOf j) (hj : uOf j = 0) : fieldU w = uOf i ∧ fieldOp w = opOf i := by
  unfold decodePlain at h
  split at h
  next hu => cases h; exact ⟨hu.trans hj.symm, hop⟩
  next => cases h

theorem uOf_encode_caseOfU (u : BitVec 1) : uOf (.encode (caseOfU u)) = u := by
  revert u
  decide

/-- What a word that decodes to a command looks like (30_encoding R62–R65). -/
theorem fields_of_decode {w : Word} {i : Instr} (h : decode w = .command i) :
    fieldRsv w = 0 ∧ fieldU w = uOf i ∧ fieldOp w = opOf i := by
  unfold decode at h
  split at h
  next => cases h
  next hrsv =>
    refine ⟨not_not.mp hrsv, ?_⟩
    split at h
    next hop => exact fields_of_decodePlain h hop rfl
    split at h
    next hop => exact fields_of_decodePlain h hop rfl
    split at h
    next hop => exact fields_of_decodePlain h hop rfl
    split at h
    next hop => cases h; exact ⟨(uOf_encode_caseOfU _).symm, hop⟩
    next => cases h

theorem encode_of_decode {w : Word} {i : Instr} (h : decode w = .command i) : encode i = w := by
  obtain ⟨hrsv, hu, hop⟩ := fields_of_decode h
  exact encode_eq_of_fields hrsv hu hop

theorem decode_encode (i : Instr) : decode (encode i) = .command i := by
  cases i with
  | init => exact Laws.RoundTrip.init rfl
  | compress => exact Laws.RoundTrip.compress rfl
  | final => exact Laws.RoundTrip.final rfl
  | encode c => exact Laws.RoundTrip.encode c (by cases c <;> rfl)

theorem decode_eq_command_iff (w : Word) (i : Instr) : decode w = .command i ↔ w = encode i :=
  ⟨fun h => (encode_of_decode h).symm, fun h => h ▸ decode_encode i⟩

theorem instr?_eq_some_iff (d : Decoded) (i : Instr) : d.instr? = some i ↔ d = .command i := by
  cases d <;> simp [Decoded.instr?]

theorem decodeTableWord_eq_some_iff (nbits n : Nat) (i : Instr) :
    decodeTableWord nbits n = some i ↔ nbits ≤ 32 ∧ BitVec.ofNat 32 (n % 2 ^ nbits) = encode i := by
  unfold decodeTableWord
  split
  next hlen => simp only [instr?_eq_some_iff, decode_eq_command_iff, hlen, true_and]
  next hlen => simp [hlen]

/-- Settles O6: both directions of the round trip by the fields of the word; a table word is the word it stands for. -/
theorem decodeAndEncodeAreInverse : Obligations.DecodeAndEncodeAreInverse :=
  ⟨fun i _ => decode_encode i, fun _ _ h => encode_of_decode h,
    fun nbits n i h => (decodeTableWord_eq_some_iff nbits n i).mp h⟩

/-! ### The five legal words -/

/-- Equal to a command's encoding, by the words of 30_encoding R65. -/
theorem eq_encode_iff (w : Word) (i : Instr) :
    w = encode i ↔
      (w = 0x00000001 ∧ i = .init) ∨ (w = 0x00000002 ∧ i = .compress) ∨ (w = 0x00000003 ∧ i = .final) ∨
      (w = 0x00000004 ∧ i = .encode .lower) ∨ (w = 0x00000014 ∧ i = .encode .upper) := by
  cases i with
  | init => simp [encode_init]
  | compress => simp [encode_compress]
  | final => simp [encode_final]
  | encode c =>
    cases c with
    | lower => simp [encode_lower]
    | upper => simp [encode_upper]

/-- `decode` is total: a word is illegal exactly when it is no command's encoding (30_encoding R65). -/
theorem decode_illegal_iff (w : Word) : (∃ why, decode w = .illegal why) ↔ ∀ i, w ≠ encode i := by
  simp only [ne_eq, ← decode_eq_command_iff]
  cases decode w <;> simp

/-- A property of every command is one of INIT, COMPRESS, FINAL and the two ENCODEs (30_encoding R62). -/
theorem forall_instr_iff (p : Instr → Prop) :
    (∀ i, p i) ↔ p .init ∧ p .compress ∧ p .final ∧ p (.encode .lower) ∧ p (.encode .upper) := by
  refine ⟨fun h => ⟨h _, h _, h _, h _, h _⟩, fun ⟨hinit, hcompress, hfinal, hlower, hupper⟩ i => ?_⟩
  match i with
  | .init => exact hinit
  | .compress => exact hcompress
  | .final => exact hfinal
  | .encode .lower => exact hlower
  | .encode .upper => exact hupper

/-- Settles O5: the legal words are the encodings of the commands, which are the five. -/
theorem exactlyFiveWordsAreLegal : Obligations.ExactlyFiveWordsAreLegal := by
  intro w
  refine ⟨fun i => (decode_eq_command_iff w i).trans (eq_encode_iff w i), ?_⟩
  rw [decode_illegal_iff, forall_instr_iff, encode_init, encode_compress, encode_final, encode_lower, encode_upper]

/-- Settles O4: the decoder run on eight words. -/
theorem decodeReadsTheFiveLegalWords : Obligations.DecodeReadsTheFiveLegalWords := by
  unfold Obligations.DecodeReadsTheFiveLegalWords
  decide

/-! ### What a command leaves alone (30_encoding R67) -/

/-- No command touches the model's own fields. -/
theorem exec_next_model {i : Instr} {s t : State} (h : exec i s = .next t) :
    t.schedule = s.schedule ∧ t.reads = s.reads ∧ t.draws = s.draws := by
  obtain ⟨u, hu, _, _, _, _, _, _, _, hmodel⟩ := exec_spec i s
  cases hu.symm.trans h
  exact hmodel

/-- ENCODE reads the Digest State and does not write it (30_encoding R67). -/
theorem exec_encode_next_h {c : LetterCase} {s t : State} (h : exec (.encode c) s = .next t) : t.h = s.h := by
  rw [exec_encode] at h
  cases h
  simp

/-- Settles O54: the common frame of the commands, then HEX, DONE and H by the command that may write them. -/
theorem commandsChangeOnlyWhatTheTableSays : Obligations.CommandsChangeOnlyWhatTheTableSays := by
  intro i s t h
  obtain ⟨hblk, hlo, hhi⟩ := exec_next_operands h
  obtain ⟨_, _, hfault, hcause⟩ := exec_next_status h
  obtain ⟨hschedule, hreads, hdraws⟩ := exec_next_model h
  refine ⟨hblk, hlo, hhi, hfault, hcause, hschedule, hreads, hdraws, ?_, ?_, ?_⟩
  · rintro ⟨c, rfl⟩
    exact ⟨exec_encode_next_h h, by simpa using exec_next_done h⟩
  · rintro rfl
    simpa using exec_next_done h
  · rintro (rfl | rfl | rfl) <;> simpa using exec_next_hex h

end Sys2Proof.Machine

/-! The Digest State (40_digest_state): who may change H, what INIT leaves in it, and what COMPRESS adds to it, by the
recurrences of the message schedule and of the rounds (41_block_compressor R84, R89). -/

namespace Sys2Proof.Machine

/-! ### Who may change H -/

/-- Of the commands only ENCODE does not write H (30_encoding R67). -/
theorem exec_next_digest {i : Instr} {s t : State} (h : exec i s = .next t) :
    i = .init ∨ i = .compress ∨ i = .final ∨ t.h = s.h := by
  cases i with
  | init => exact .inl rfl
  | compress => exact .inr (.inl rfl)
  | final => exact .inr (.inr (.inl rfl))
  | encode c => exact .inr (.inr (.inr (exec_encode_next_h h)))

/-- A host access loses H only when it raises a fault while BUSY = 1 (60_exceptions R157). -/
theorem hostAccess_digest (a : Access) (s : State) :
    (hostAccess a s).h = s.h ∨
    (s.status.busy = true ∧ s.status.fault = false ∧ (hostAccess a s).status.fault = true) := by
  rcases hostAccess_cases a s with
    ⟨hh, _⟩ | ⟨hnf, _, _, _, hfault⟩ | ⟨_, _, _, _, h⟩ | ⟨_, _, _, h⟩ | ⟨_, _, _, h⟩ | ⟨_, _, _, _, _, _, h⟩
  · exact .inl hh
  · obtain ⟨hf, _, _, _, _, _, _, _, hkeep⟩ := hfault
    cases hb : s.status.busy with
    | true => exact .inr ⟨rfl, hnf, hf⟩
    | false => exact .inl (hkeep hb).1
  all_goals exact .inl (by simp [h])

/-- Settles O17, by the kind of step. -/
theorem digestChangesOnlyByItsWriters : Obligations.DigestChangesOnlyByItsWriters := by
  intro s t h hne
  rcases step_next_cases h with ⟨i, hi, hexec⟩ | ⟨hr, _⟩ | ⟨a, _, rfl⟩ | rfl
  · rcases exec_next_digest hexec with rfl | rfl | rfl | hsame
    · exact .inr (.inl hi)
    · exact .inr (.inr (.inl hi))
    · exact .inr (.inr (.inr (.inl hi)))
    · exact absurd hsame hne
  · exact .inl hr
  · rcases hostAccess_digest a (s.setSchedule s.schedule.tail) with hsame | hfault
    · exact absurd hsame hne
    · exact .inr (.inr (.inr (.inr hfault)))
  · exact absurd rfl hne

/-! ### COMPRESS by its recurrences -/

/-- A sequence that starts with the block's words and meets the recurrence is the block's schedule
(41_block_compressor R83, R84). -/
theorem messageSchedule_getD_eq_of_recurrence {B : List Byte} (hB : B.length = 64) {W : Nat → Word}
    (hfirst : ∀ t < 16, W t = (wordsOf B).getD t 0)
    (hrec : ∀ t, 16 ≤ t → t ≤ 79 → W t = rotl (W (t - 3) ^^^ W (t - 8) ^^^ W (t - 14) ^^^ W (t - 16)) 1)
    (t : Nat) (ht : t < 80) : (messageSchedule B).getD t 0 = W t := by
  induction t using Nat.strongRecOn with
  | ind t ih =>
    rcases Nat.lt_or_ge t 16 with h16 | h16
    · rw [messageSchedule_first B hB t h16, hfirst t h16]
    · rw [messageSchedule_recurrence B hB t h16 ht, hrec t h16 (by omega), ih (t - 3) (by omega) (by omega),
        ih (t - 8) (by omega) (by omega), ih (t - 14) (by omega) (by omega), ih (t - 16) (by omega) (by omega)]

/-- A sequence of working variables that meets the rounds' recurrence over `W` is what the rounds compute. -/
theorem rounds_take_eq_of_recurrence {W : List Word} {V : Nat → WorkingVars}
    (hV : ∀ t < W.length, V (t + 1) = shaRound t (W.getD t 0) (V t)) (n : Nat) (hn : n ≤ W.length) :
    rounds 0 (W.take n) (V 0) = V n := by
  induction n with
  | zero => rfl
  | succ n ih => rw [rounds_take_succ W (V 0) n hn, ih (by omega), hV n hn]

/-- The round function of round t, written out by quadrant (41_block_compressor R86, R87). -/
theorem roundFunction_quadrant (t : Nat) (b c d : Word) :
    roundFunction (quadrant t) b c d =
      if t ≤ 19 then (b &&& c) ||| (~~~b &&& d)
      else if t ≤ 39 then b ^^^ c ^^^ d
      else if t ≤ 59 then (b &&& c) ||| (b &&& d) ||| (c &&& d)
      else b ^^^ c ^^^ d := by
  unfold quadrant
  split_ifs <;> rfl

/-- The constant of round t, written out by quadrant (40_digest_state R77, 41_block_compressor R86). -/
theorem K_quadrant (t : Nat) :
    K (quadrant t) =
      if t ≤ 19 then 0x5A827999 else if t ≤ 39 then 0x6ED9EBA1 else if t ≤ 59 then 0x8F1BBCDC else 0xCA62C1D6 := by
  unfold quadrant
  split_ifs <;> rfl

/-- Settles O42: W is the schedule and V the rounds' working variables, so V after 80 rounds is what Compress adds. -/
theorem compressFollowsTheRoundRecurrence : Obligations.CompressFollowsTheRoundRecurrence := by
  intro s W V hfirst hrec hseed hround
  have hB := s.blkBytes_length
  have hlen := messageSchedule_length s.blkBytes hB
  have hW : ∀ t < 80, (messageSchedule s.blkBytes).getD t 0 = W t := by
    refine messageSchedule_getD_eq_of_recurrence hB (fun t ht => ?_) hrec
    simpa [ht] using hfirst ⟨t, ht⟩
  have hV : ∀ t < (messageSchedule s.blkBytes).length,
      V (t + 1) = shaRound t ((messageSchedule s.blkBytes).getD t 0) (V t) := by
    intro t ht
    rw [hW t (by omega), hround t (by omega), shaRound, roundFunction_quadrant, K_quadrant]
  have h80 : rounds 0 (messageSchedule s.blkBytes) (seed s.h) = V 80 := by
    have htake := rounds_take_eq_of_recurrence hV 80 hlen.ge
    rwa [List.take_of_length_le hlen.le, hseed] at htake
  rw [exec_compress_record, compressBlock_eq, h80, foldVars]

/-! ### INIT -/

/-- Settles O39: IV is the five literals. -/
theorem initLoadsTheInitialValues : Obligations.InitLoadsTheInitialValues := exec_init_record

/-- Settles O3: H, DONE, BUSY and PEND already hold after reset what INIT gives them. -/
theorem initAfterResetChangesNothing : Obligations.InitAfterResetChangesNothing := by
  rintro s ⟨hh, _, _, _, _, hstatus, hpend⟩
  refine ⟨_, exec_init_record s, hh.symm, rfl, rfl, rfl, rfl, ?_, hpend.symm⟩
  rw [hstatus]
  rfl

end Sys2Proof.Machine

/-! The round functions bit by bit (41_block_compressor R87) and the block COMPRESS takes (R94): bit i of a round
function depends on bit i of b, c and d only. -/

namespace Sys2Proof.Machine

/-! ### The round functions -/

/-- f(0) is choice (41_block_compressor R87). -/
theorem getLsbD_roundFunction_choice (b c d : Word) {i : Nat} (hi : i < 32) :
    (roundFunction 0 b c d).getLsbD i = if b.getLsbD i then c.getLsbD i else d.getLsbD i := by
  have hbits : (roundFunction 0 b c d).getLsbD i =
      ((b.getLsbD i && c.getLsbD i) || (!b.getLsbD i && d.getLsbD i)) := by
    simp [roundFunction, hi]
  rw [hbits]
  cases b.getLsbD i <;> simp

/-- The exclusive or of three words, in the two quadrants that use it (41_block_compressor R87). -/
theorem getLsbD_roundFunction_parity {q : Fin 4} (hq : q = 1 ∨ q = 3) (b c d : Word) (i : Nat) :
    (roundFunction q b c d).getLsbD i = ((b.getLsbD i ^^ c.getLsbD i) ^^ d.getLsbD i) := by
  rcases hq with rfl | rfl <;> simp only [roundFunction, BitVec.getLsbD_xor]

/-- Two of three bits are set exactly when one of the three pairs is. -/
theorem or_pairs_eq_majority (x y z : Bool) :
    ((x && y) || (x && z) || (y && z)) = decide (2 ≤ x.toNat + y.toNat + z.toNat) := by
  revert x y z
  decide

/-- f(2) is majority (41_block_compressor R87). -/
theorem getLsbD_roundFunction_majority (b c d : Word) (i : Nat) :
    (roundFunction 2 b c d).getLsbD i =
      decide (2 ≤ (b.getLsbD i).toNat + (c.getLsbD i).toNat + (d.getLsbD i).toNat) := by
  rw [← or_pairs_eq_majority]
  simp only [roundFunction, BitVec.getLsbD_or, BitVec.getLsbD_and]

/-- Settles O41: choice, parity, majority, parity. -/
theorem roundFunctionsBitByBit : Obligations.RoundFunctionsBitByBit := fun b c d i hi =>
  ⟨getLsbD_roundFunction_choice b c d hi, getLsbD_roundFunction_parity (.inl rfl) b c d i,
    getLsbD_roundFunction_majority b c d i, getLsbD_roundFunction_parity (.inr rfl) b c d i⟩

/-! ### The block COMPRESS takes -/

/-- Settles O43: what COMPRESS compresses is BLKBYTES, which is the sequence of the block bytes. -/
theorem compressTakesTheBlockBytes : Obligations.CompressTakesTheBlockBytes := by
  intro s
  rw [exec_compress_record, State.blkBytes_eq_ofFn]

end Sys2Proof.Machine

/-! Padding and framing (42_padding_framing): the padded tail byte by byte, padding a message as padding its tail, and
the compressions of FINAL as a fold over the one or two padded blocks. -/

namespace Sys2Proof.Machine

/-! ### The layout of the padded tail -/

theorem zeroCount_of_le_63 {r : Nat} (h : r ≤ 63) : zeroCount r = if r ≤ 55 then 55 - r else 119 - r := by
  rw [zeroCount_eq, Nat.mod_eq_of_lt (by omega)]

/-- A padded tail is a whole number of blocks, as its length field ends one (42_padding_framing R102). -/
theorem padTail_length_of_le_63 {t : List Byte} (L : Nat) (h : t.length ≤ 63) :
    (padTail t L).length = if t.length ≤ 55 then 64 else 128 := by
  rcases padTail_length_cases t L h with ⟨ht, hlen⟩ | ⟨ht, hlen⟩
  · rw [hlen, if_pos ht]
  · rw [hlen, if_neg (by omega)]

/-- Byte i of `be64`, counted from the most significant (00_scope R12). -/
theorem be64_getElem? (v : BitVec 64) {i : Nat} (hi : i < 8) :
    (be64 v)[i]? = some (BitVec.ofNat 8 (v.toNat / 256 ^ (7 - i))) := by
  have hbyte : (be64 v)[i]? = some (v.extractLsb' (8 * (7 - i)) 8) := by
    interval_cases i <;> rfl
  have hpow : 2 ^ (8 * (7 - i)) = 256 ^ (7 - i) := pow_mul 2 8 (7 - i)
  rw [hbyte, BitVec.extractLsb', Nat.shiftRight_eq_div_pow, hpow]

theorem lengthField_getElem? (L : Nat) {i : Nat} (hi : i < 8) :
    (lengthField L)[i]? = some (BitVec.ofNat 8 (8 * L % 2 ^ 64 / 256 ^ (7 - i))) := by
  rw [lengthField, be64_getElem? _ hi, BitVec.toNat_ofNat]

/-- The four regions of a padded tail, by position (42_padding_framing R101). -/
theorem padTail_getElem? (t : List Byte) (L : Nat) {j : Nat} (hj : j < (padTail t L).length) :
    (padTail t L)[j]? = some
      (if j < t.length then t.getD j 0x00
      else if j = t.length then 0x80
      else if j < (padTail t L).length - 8 then 0x00
      else BitVec.ofNat 8 (8 * L % 2 ^ 64 / 256 ^ ((padTail t L).length - 1 - j))) := by
  rw [padTail_length] at hj ⊢
  rw [padTail]
  split_ifs with htail hmark hzero
  · simp [List.getElem?_append_left, htail]
  · simp [hmark]
  · rw [List.getElem?_append_left (by simp; omega), List.getElem?_append_right (by simp; omega),
      List.getElem?_replicate_of_lt (by simp; omega)]
  · have hfront : (t ++ [0x80] ++ List.replicate (zeroCount t.length) 0x00).length =
        t.length + 1 + zeroCount t.length := by simp; omega
    have hexp : 7 - (j - (t.length + 1 + zeroCount t.length)) = t.length + 1 + zeroCount t.length + 8 - 1 - j := by
      omega
    rw [List.getElem?_append_right (by omega), lengthField_getElem? L (by omega), hfront, hexp]

/-- Settles O45, by the region the byte lies in. -/
theorem paddedTailLayout : Obligations.PaddedTailLayout := fun _ L h =>
  ⟨padTail_length_of_le_63 L h, fun _ hj => padTail_getElem? _ L hj⟩

/-! ### Padding a message is padding its tail -/

theorem slice_zero (m : List Byte) (k : Nat) : slice m 0 k = m.take k := by
  rw [slice, List.drop_zero, Nat.sub_zero]

theorem slice_to_length (m : List Byte) (k : Nat) : slice m k m.length = m.drop k :=
  List.take_of_length_le (by simp)

/-- A message is its whole blocks and then its tail (42_padding_framing R99). -/
theorem whole_blocks_append_tail (m : List Byte) (k : Nat) : slice m 0 k ++ slice m k m.length = m := by
  rw [slice_zero, slice_to_length, List.take_append_drop]

/-- A message's tail has len(m) mod 64 bytes (42_padding_framing R99). -/
theorem length_tail_slice (m : List Byte) :
    (slice m (64 * (m.length / 64)) m.length).length = m.length % 64 := by
  rw [slice_length m _ _ (Nat.le_refl _)]; omega

/-- Settles O47: a message and its tail are padded with the same number of zeros and the same length field. -/
theorem framingIdentity : Obligations.FramingIdentity := by
  intro m
  rw [padTail, length_tail_slice, zeroCount_mod, ← List.append_assoc, ← List.append_assoc, ← List.append_assoc,
    whole_blocks_append_tail, padMsg]

/-- Settles O48, by whether the tail leaves room for the length field in its block. -/
theorem paddedBlockCount : Obligations.PaddedBlockCount := by
  intro m
  rw [padMsg_length, zeroCount_eq]
  split_ifs <;> omega

/-! ### The streaming path and the in-memory path -/

theorem foldBlocks_eq_foldl_map (S : Digest) (P : List Byte) (N : Nat) :
    foldBlocks S P N = ((List.range N).map fun j => slice P (64 * j) (64 * j + 64)).foldl compressBlock S := by
  rw [foldBlocks, List.foldl_map]

/-- Bytes after the n blocks folded over do not matter. -/
theorem foldBlocks_append_left (S : Digest) (a b : List Byte) (n : Nat) (h : a.length = 64 * n) :
    foldBlocks S (a ++ b) n = foldBlocks S a n := foldBlocks_append S a b n 0 h

/-- Settles O49: by the framing identity the in-memory path folds over the whole blocks and then the padded tail. -/
theorem streamEqualsSha1 : Obligations.StreamEqualsSha1 := by
  intro m
  have hwhole : (slice m 0 (64 * (m.length / 64))).length = 64 * (m.length / 64) :=
    slice_length m _ _ (Nat.mul_div_le _ _)
  have hcount : (padMsg m).length / 64 = m.length / 64 + (messageTail m).length / 64 := by
    rw [framingIdentity m, List.length_append, hwhole, messageTail, Nat.mul_add_div (by decide)]
  calc stream m
      = foldBlocks (foldBlocks IV (slice m 0 (64 * (m.length / 64))) (m.length / 64)) (messageTail m)
          ((messageTail m).length / 64) := by
        rw [stream, ← foldBlocks_append_left IV _ (slice m (64 * (m.length / 64)) m.length) _ hwhole,
          whole_blocks_append_tail]
    _ = foldBlocks IV (slice m 0 (64 * (m.length / 64)) ++ messageTail m)
          (m.length / 64 + (messageTail m).length / 64) := (foldBlocks_append _ _ _ _ _ hwhole).symm
    _ = sha1 m := by rw [sha1, hcount, messageTail, ← framingIdentity m]

/-! ### FINAL -/

theorem finalDigest_of_one_block (S : Digest) {P : List Byte} (h : P.length = 64) :
    finalDigest S P = compressBlock S P := by
  rw [finalDigest, if_neg (by omega), slice_zero, List.take_of_length_le h.le]

theorem finalDigest_of_two_blocks (S : Digest) {P : List Byte} (h : P.length = 128) :
    finalDigest S P = compressBlock (compressBlock S (P.take 64)) (P.drop 64) := by
  rw [finalDigest, if_pos h, slice_zero, ← h, slice_to_length]

/-- FINAL folds over the blocks of its padded tail. -/
theorem finalDigest_padTail (S : Digest) {t : List Byte} (L : Nat) (h : t.length ≤ 63) :
    finalDigest S (padTail t L) = foldBlocks S (padTail t L) ((padTail t L).length / 64) := by
  rcases padTail_length_cases t L h with ⟨_, hlen⟩ | ⟨_, hlen⟩
  · rw [finalDigest, hlen, if_neg (by decide)]; rfl
  · rw [finalDigest, hlen, if_pos rfl]; rfl

/-- The tail FINAL pads is the first r block bytes (42_padding_framing R110). -/
theorem State.tail_eq_take_ofFn (s : State) : s.tail = (List.ofFn s.blkByte).take (s.msglen % 64) := by
  rw [State.tail, State.blkBytes_eq_ofFn, State.tailLength]

theorem State.tailLength_le_63 (s : State) : s.tailLength ≤ 63 := by
  rw [State.tailLength]; omega

/-- Settles O44, by whether the tail's padding takes one block or two. -/
theorem finalCompressesTheOneOrTwoPaddedBlocks : Obligations.FinalCompressesTheOneOrTwoPaddedBlocks := by
  intro s L r z P
  have hr : s.tail.length = r := s.tail_length
  have h63 : s.tail.length ≤ 63 := s.tail_length ▸ s.tailLength_le_63
  have hz : zeroCount s.tail.length = z := by
    rw [zeroCount_of_le_63 h63, hr]
  have hP : padTail s.tail s.msglen = P := by
    rw [padTail, hz, State.tail_eq_take_ofFn]; rfl
  have hdigest : finalDigest s.h (padTail s.tail s.msglen) =
      if r ≤ 55 then compressBlock s.h P else compressBlock (compressBlock s.h (P.take 64)) (P.drop 64) := by
    rw [← hr, ← hP]
    rcases padTail_length_cases s.tail s.msglen h63 with ⟨ht, hlen⟩ | ⟨ht, hlen⟩
    · rw [if_pos ht, finalDigest_of_one_block _ hlen]
    · rw [if_neg (by omega), finalDigest_of_two_blocks _ hlen]
  rw [exec_final_record, hdigest]

/-- Settles O46: equal block bytes below r are equal tails, and FINAL takes of BLK the tail alone. -/
theorem finalIgnoresTheUnusedBlockBytes : Obligations.FinalIgnoresTheUnusedBlockBytes := by
  intro s u hh hlo hhi hbytes
  have hmsglen : s.msglen = u.msglen := by rw [State.msglen, State.msglen, hlo, hhi]
  have htail : s.tail = u.tail := by
    rw [State.tail_eq_take_ofFn, State.tail_eq_take_ofFn, ← hmsglen]
    apply List.ext_getElem
    · simp only [List.length_take, List.length_ofFn]
    · intro j hj _
      rw [List.length_take, List.length_ofFn] at hj
      simpa only [List.getElem_take, List.getElem_ofFn] using hbytes ⟨j, by omega⟩ (by simp only; omega)
  refine ⟨_, _, exec_final_record s, exec_final_record u, ?_⟩
  rw [hh, htail, hmsglen]

end Sys2Proof.Machine

/-! The host's duty (42_padding_framing R113, R114): along a run that neither resets nor faults, H and DONE are what the
commands performed make of them, each from the block it was performed on. -/

namespace Sys2Proof.Machine

/-! ### H and DONE after one command -/

/-- H and DONE after command `p.1`, performed with the operands of the block `p.2`, from the H and DONE given. -/
def digestAfter (r : Digest × Bool) (p : Instr × State) : Digest × Bool :=
  match p.1 with
  | .init => (IV, false)
  | .compress => (compressBlock r.1 p.2.blkBytes, r.2)
  | .final => (finalDigest r.1 (padTail p.2.tail p.2.msglen), true)
  | .encode _ => r

/-- H and DONE of a state. -/
def State.digestDone (s : State) : Digest × Bool := (s.h, s.status.done)

theorem exec_digestDone {i : Instr} {s t : State} (h : exec i s = .next t) :
    t.digestDone = digestAfter s.digestDone (i, s) := by
  cases i with
  | init => rw [exec_init] at h; cases h; rfl
  | compress => rw [exec_compress] at h; cases h; rfl
  | final => rw [exec_final] at h; cases h; rfl
  | encode c => rw [exec_encode] at h; cases h; rfl

theorem digestAfter_of_isEncode {p : Instr × State} (h : isEncode p.1 = true) (r : Digest × Bool) :
    digestAfter r p = r := by
  obtain ⟨i, s⟩ := p
  cases i with
  | encode c => rfl
  | init => cases h
  | compress => cases h
  | final => cases h

/-- A command's operands do not include the schedule. -/
theorem digestAfter_setSchedule (r : Digest × Bool) (i : Instr) (s : State) (es : List Event) :
    digestAfter r (i, s.setSchedule es) = digestAfter r (i, s) := by
  cases i with
  | init => rfl
  | compress => rfl
  | final => rfl
  | encode c => rfl

/-! ### H and DONE along a run -/

/-- No host access leaves the fault state (44_host_access R133). -/
theorem hostAccess_keeps_fault (a : Access) {s : State} (hf : s.status.fault = true) :
    (hostAccess a s).status.fault = true := by
  obtain ⟨⟨_, _, _, _, _, hstatus, _⟩, _⟩ := faultStateAccess_spec a s
  rw [hostAccess, if_pos hf, hstatus, hf]

/-- A host access after which there is no fault has kept H and DONE. -/
theorem hostAccess_digestDone {a : Access} {s : State} (hf : (hostAccess a s).status.fault = false) :
    (hostAccess a s).digestDone = s.digestDone := by
  rcases hostAccess_digest a s with hh | ⟨_, _, hfault⟩
  · rw [State.digestDone, hh, hostAccess_done, State.digestDone]
  · simp [hf] at hfault

/-- Without a reset a fault stays (60_exceptions R161). -/
theorem step_keeps_fault {s t : State} (hreset : ¬ s.ResetNext) (hstep : step s = .next t)
    (hf : s.status.fault = true) : t.status.fault = true := by
  rcases step_next_cases hstep with ⟨_, _, hexec⟩ | ⟨hr, _⟩ | ⟨a, _, rfl⟩ | rfl
  · obtain ⟨_, _, hfault, _⟩ := exec_next_status hexec
    exact hfault.trans hf
  · exact absurd hr hreset
  · exact hostAccess_keeps_fault a hf
  · exact hf

/-- A step that neither resets nor ends in a fault makes of H and DONE what the command it performs does, if any. -/
theorem step_digestDone {s t : State} (hreset : ¬ s.ResetNext) (hstep : step s = .next t)
    (hf : t.status.fault = false) :
    (∃ i, s.nextCommand = some i ∧ t.digestDone = digestAfter s.digestDone (i, s)) ∨
    (s.nextCommand = none ∧ t.digestDone = s.digestDone) := by
  rcases step_cases s with ⟨i, hi, _, hs⟩ | ⟨_, hr, _⟩ | ⟨hn, _, a, _, hs⟩ | ⟨hn, _, _, hs⟩
  · rw [hs] at hstep
    have hdigest := exec_digestDone hstep
    rw [digestAfter_setSchedule] at hdigest
    exact .inl ⟨i, hi, hdigest⟩
  · exact absurd hr hreset
  · rw [hs] at hstep
    cases hstep
    exact .inr ⟨hn, hostAccess_digestDone hf⟩
  · rw [hs] at hstep
    cases hstep
    exact .inr ⟨hn, rfl⟩

/-- A run of k + 1 steps is a step and a run of k. -/
theorem run_succ_inv {k : Nat} {s t : State} (h : Host.Core.run core (k + 1) s = .next t) :
    ∃ u, step s = .next u ∧ Host.Core.run core k u = .next t := by
  cases hs : step s with
  | next u => exact ⟨u, rfl, by rwa [run_succ_of_step k hs] at h⟩
  | fault r => cases r
  | refused r =>
    have hc : core.step s = .refused r := hs
    simp [Host.Core.run, hc] at h

/-- Along a run without a reset that has not faulted, H and DONE are the commands performed, in order. -/
theorem run_digestDone {k : Nat} {s t : State} (hreset : ∀ e ∈ s.schedule, e ≠ .reset)
    (hrun : Host.Core.run core k s = .next t) (hf : t.status.fault = false) :
    s.status.fault = false ∧ t.digestDone = (performed k s).foldl digestAfter s.digestDone := by
  induction k generalizing s with
  | zero => cases hrun; exact ⟨hf, rfl⟩
  | succ k ih =>
    obtain ⟨u, hstep, hrun⟩ := run_succ_inv hrun
    have hnext : ¬ s.ResetNext := fun h => hreset _ (List.mem_of_mem_head? h) rfl
    have hrest : ∀ e ∈ u.schedule, e ≠ .reset := fun e he =>
      hreset e (List.mem_of_mem_tail (step_schedule hstep ▸ he))
    obtain ⟨hfu, hdigest⟩ := ih hrest hrun
    refine ⟨Bool.eq_false_iff.mpr fun hfs => ?_, ?_⟩
    · simp [step_keeps_fault hnext hstep hfs] at hfu
    · rcases step_digestDone hnext hstep hfu with ⟨i, hi, hu⟩ | ⟨hn, hu⟩
      · rw [performed_succ_of_command k hi hstep, List.foldl_cons, hdigest, hu]
      · rw [performed_succ_of_none k hn hstep, hdigest, hu]

/-! ### The commands of the host's duty -/

/-- ENCODEs do not enter H and DONE (43_output_encoder R122). -/
theorem foldl_digestAfter_filter (ps : List (Instr × State)) (r : Digest × Bool) :
    (ps.filter fun p => !isEncode p.1).foldl digestAfter r = ps.foldl digestAfter r := by
  induction ps generalizing r with
  | nil => rfl
  | cons p ps ih =>
    cases hp : isEncode p.1 with
    | true => rw [List.filter_cons_of_neg (by simp [hp]), ih, List.foldl_cons, digestAfter_of_isEncode hp]
    | false => rw [List.filter_cons_of_pos (by simp [hp]), List.foldl_cons, ih, List.foldl_cons]

/-- COMPRESSes fold their blocks into H and leave DONE (41_block_compressor R94). -/
theorem foldl_digestAfter_compress (cs : List State) (H : Digest) (d : Bool) :
    (cs.map fun c => (Instr.compress, c)).foldl digestAfter (H, d) =
      ((cs.map State.blkBytes).foldl compressBlock H, d) := by
  induction cs generalizing H with
  | nil => rfl
  | cons c cs ih => exact ih (compressBlock H c.blkBytes)

/-- Commands that meet the duty for m make SHA1(m) of the initial values, by the streaming path, and set DONE
(42_padding_framing R114). -/
theorem foldl_digestAfter_of_meetsDuty {m : List Byte} {ps : List (Instr × State)} (h : MeetsDuty m ps) (d : Bool) :
    ps.foldl digestAfter (IV, d) = (sha1 m, true) := by
  obtain ⟨cs, f, hps, hblocks, hlen, htail⟩ := h
  have h63 : (slice m (64 * (m.length / 64)) m.length).length ≤ 63 := by rw [length_tail_slice]; omega
  calc ps.foldl digestAfter (IV, d)
      = digestAfter ((cs.map State.blkBytes).foldl compressBlock IV, d) (.final, f) := by
        rw [← foldl_digestAfter_filter, hps, List.foldl_append, foldl_digestAfter_compress, List.foldl_cons,
          List.foldl_nil]
    _ = (finalDigest (foldBlocks IV m (m.length / 64)) (messageTail m), true) := by
        rw [hblocks, ← foldBlocks_eq_foldl_map, digestAfter, htail, hlen, messageTail]
    _ = (stream m, true) := by rw [messageTail, finalDigest_padTail _ _ h63, stream, messageTail]
    _ = (sha1 m, true) := by rw [streamEqualsSha1 m]

/-- Settles O50: H and DONE are what the commands performed make of IV, and those are the duty's. -/
theorem hostDutyGivesTheSha1Digest : Obligations.HostDutyGivesTheSha1Digest := by
  intro m k s t hIV _ _ hreset hrun hduty hf
  have hstart : s.digestDone = (IV, s.status.done) := congrArg (·, s.status.done) hIV
  obtain ⟨_, hend⟩ := run_digestDone hreset hrun hf
  rw [hstart, foldl_digestAfter_of_meetsDuty hduty] at hend
  exact ⟨congrArg Prod.fst hend, congrArg Prod.snd hend⟩

end Sys2Proof.Machine

/-! The Output Encoder (43_output_encoder): the digit of a nibble, the characters of HEX after ENCODE, and ENCODE's frame. -/

namespace Sys2Proof.Machine

/-! ### What ENCODE leaves (43_output_encoder R121, R122) -/

theorem exec_encode_next_hex {c : LetterCase} {s t : State} (h : exec (.encode c) s = .next t) :
    t.hex = hexWords (renderDigest s.h c) := by
  rw [exec_encode] at h
  cases h
  simp

/-- ENCODE writes HEX and ends the command, and nothing else (43_output_encoder R122). -/
theorem exec_encode_next_frame {c : LetterCase} {s t : State} (h : exec (.encode c) s = .next t) :
    t = { s with hex := t.hex, status := { s.status with busy := false }, pend := none } := by
  rw [exec_encode_record] at h
  cases h
  rfl

theorem exec_encode_next_hexChar {c : LetterCase} {s t : State} (h : exec (.encode c) s = .next t) (j : Fin 40) :
    t.hexChar j = (renderDigest s.h c).getD j.val 0 :=
  hexChar_hexWords t _ (exec_encode_next_hex h) j

/-- Settles O53: ENCODE keeps H, and HEX after an ENCODE is the rendering of H. -/
theorem encodeIsRepeatable : Obligations.EncodeIsRepeatable := by
  intro s c d
  have ht := exec_encode c s
  have hu := exec_encode d (s.setHex (hexWords (renderDigest s.h c))).endCommand
  have hv := exec_encode d s
  refine ⟨_, _, _, ht, hu, hv, exec_encode_next_frame ht, ?_⟩
  rw [exec_encode_next_hex hu, exec_encode_next_hex hv, exec_encode_next_h ht]

/-! ### Nibbles and digits (43_output_encoder R117, R118) -/

theorem nibble_toNat (w : Word) {p : Nat} (hp : p < 8) : (nibble w p).toNat = w.toNat / 16 ^ (7 - p) % 16 := by
  have hpow : 2 ^ (28 - 4 * p) = 16 ^ (7 - p) := by
    rw [show 28 - 4 * p = 4 * (7 - p) by omega, pow_mul]
    norm_num
  rw [nibble, BitVec.extractLsb'_toNat, Nat.shiftRight_eq_div_pow, hpow]

theorem hexDigit_toNat_of_le {v : BitVec 4} (h : v.toNat ≤ 9) (c : LetterCase) :
    (hexDigit v c).toNat = 0x30 + v.toNat := by
  rw [hexDigit, if_pos h]
  bv_omega

theorem hexDigit_toNat_of_lt {v : BitVec 4} (h : 9 < v.toNat) (c : LetterCase) :
    (hexDigit v c).toNat = (letterA c).toNat + (v.toNat - 10) := by
  rw [hexDigit, if_neg (by omega)]
  cases c <;> simp only [letterA] <;> bv_omega

/-- Settles O51: a character of HEX is the digit of its nibble; a decimal one or a letter by that nibble's number. -/
theorem encodeRendersEveryNibble : Obligations.EncodeRendersEveryNibble := by
  intro s c
  have ht := exec_encode c s
  refine ⟨_, ht, exec_encode_next_frame ht, fun i p => ?_⟩
  rw [exec_encode_next_hexChar ht, renderDigest_getD s.h c i p.val p.isLt, ← nibble_toNat _ p.isLt]
  apply BitVec.eq_of_toNat_eq
  rcases Nat.lt_or_ge 9 (nibble (s.h.word i) p.val).toNat with h | h
  · rw [hexDigit_toNat_of_lt h, if_neg (by omega)]
    cases c <;> simp only [letterA] <;> bv_omega
  · rw [hexDigit_toNat_of_le h, if_pos h, BitVec.toNat_ofNat, Nat.mod_eq_of_lt (by omega)]

/-! ### The two letter cases (43_output_encoder R120) -/

/-- The decimal digits have codes up to 0x39 and no case; the letters lie above, 0x20 apart (43_output_encoder R120). -/
theorem hexDigit_upper_eq_lower_sub (v : BitVec 4) :
    hexDigit v .upper =
      if (hexDigit v .lower).toNat ≤ 0x39 then hexDigit v .lower else hexDigit v .lower - 0x20 := by
  apply BitVec.eq_of_toNat_eq
  rcases Nat.lt_or_ge 9 v.toNat with h | h
  · have hl := hexDigit_toNat_of_lt h .lower
    have hu := hexDigit_toNat_of_lt h .upper
    simp only [letterA] at hl hu
    rw [if_neg (by bv_omega)]
    bv_omega
  · have hl := hexDigit_toNat_of_le h .lower
    rw [if_pos (by omega), hl, hexDigit_toNat_of_le h]

/-- Every character of a rendering is the digit of one nibble of the digest, the same one in both letter cases. -/
theorem exists_nibble_of_renderDigest_getD (H : Digest) (j : Fin 40) :
    ∃ v, ∀ c, (renderDigest H c).getD j.val 0 = hexDigit v c := by
  refine ⟨nibble (H.word ⟨j.val / 8, by omega⟩) (j.val % 8), fun c => ?_⟩
  rw [← renderDigest_getD H c ⟨j.val / 8, by omega⟩ (j.val % 8) (by omega), Nat.div_add_mod]

/-- Settles O52: character j is the digit of one nibble in both cases, and the cases differ on letters only. -/
theorem upperCaseIsLowerCaseMinus0x20OnLetters : Obligations.UpperCaseIsLowerCaseMinus0x20OnLetters := by
  intro s
  have hl := exec_encode .lower s
  have hu := exec_encode .upper s
  refine ⟨_, _, hl, hu, fun j => ?_⟩
  obtain ⟨v, hv⟩ := exists_nibble_of_renderDigest_getD s.h j
  rw [exec_encode_next_hexChar hl, exec_encode_next_hexChar hu, hv, hv, hexDigit_upper_eq_lower_sub]

end Sys2Proof.Machine

/-! HOST and CORE (44_host_access): what a read, a data write and a command write do, accesses in the fault state, CORE's
turn, and the performing of a pending command in the end. -/

namespace Sys2Proof.Machine

/-! ### CORE's turn and a single step (44_host_access R130) -/

/-- With no event left the step is CORE's (44_host_access R140, log 3). -/
theorem step_of_nil {s : State} (h : s.schedule = []) : step s = coreStep s := by
  simp [step, h]

theorem step_of_core {s : State} {rest : List Event} (h : s.schedule = .core :: rest) :
    step s = coreStep (s.setSchedule rest) := by
  simp [step, h, perform]

theorem coreStep_of_pending {s : State} {i : Instr} (h : s.pend = some i) : coreStep s = exec i s := by
  simp [coreStep, h]

theorem coreStep_of_nothing_pending {s : State} (h : s.pend = none) : coreStep s = .next s := by
  simp [coreStep, h]

/-- Settles O7: the four cases of CORE's turn. -/
theorem coreTurnPerformsThePendingCommand : Obligations.CoreTurnPerformsThePendingCommand := by
  intro s rest
  refine ⟨fun i hp h => ?_, fun i hp h => ?_, fun hp h => ?_, fun hp h => ?_⟩
  · rw [step_of_nil h, coreStep_of_pending hp]
  · exact (step_of_core h).trans (coreStep_of_pending hp)
  · rw [step_of_nil h, coreStep_of_nothing_pending hp]
  · exact (step_of_core h).trans (coreStep_of_nothing_pending hp)

/-- No command looks at the events to come or at what the host has read. -/
theorem exec_of_other_schedule_and_reads {i : Instr} {s t : State} (h : exec i s = .next t) (es : List Event)
    (rs : List Word) :
    exec i { s with schedule := es, reads := rs } = .next { t with schedule := es, reads := rs } := by
  cases i with
  | init => rw [exec_init] at h; cases h; rfl
  | compress => rw [exec_compress] at h; cases h; rfl
  | final => rw [exec_final] at h; cases h; rfl
  | encode c => rw [exec_encode] at h; cases h; rfl

/-- Settles O10: what every command does to STATUS and PEND, and that the host's fields are none of its operands. -/
theorem coreStepCannotFault : Obligations.CoreStepCannotFault := by
  intro i s
  obtain ⟨t, ht, _⟩ := exec_spec i s
  obtain ⟨hpend, hbusy, hfault, hcause⟩ := exec_next_status ht
  exact ⟨t, ht, hpend, hbusy, hfault, hcause, exec_of_other_schedule_and_reads ht⟩

/-- Settles O11, by the kind of step. -/
theorem everyStepAnswersANextState : Obligations.EveryStepAnswersANextState := by
  intro s
  rcases step_cases s with ⟨i, _, _, hs⟩ | ⟨_, _, hs⟩ | ⟨_, _, a, _, hs⟩ | ⟨_, _, _, hs⟩
  · obtain ⟨t, ht, _⟩ := exec_spec i (s.setSchedule s.schedule.tail)
    exact ⟨t, hs.trans ht⟩
  · exact ⟨_, hs⟩
  · exact ⟨_, hs⟩
  · exact ⟨_, hs⟩

/-- Settles O9: the placed command is pending and CORE is to move. -/
theorem stepRunsThePlacedCommand : Obligations.StepRunsThePlacedCommand := by
  intro s w i hd
  have hplaced : s.withFetchWord 32 w = ((s.setPend (some i)).setBusy true).setSchedule (.core :: s.schedule) := by
    simp [State.withFetchWord, placeCommand, hd]
  rw [hplaced, step_of_core rfl, coreStep_of_pending rfl]
  rfl

/-! ### Reads (44_host_access R125, R133) -/

/-- A read of a register's offset is a read of the register, in the fault state too. -/
theorem hostAccess_read_offset (r : Reg) (s : State) :
    hostAccess { off := r.offset, width := 4, dir := .read } s = readReg r s := by
  simp [hostAccess, faultStateAccess, regAccess]

/-- Settles O24: the read answers the register's value, and the statement's value is that one register by register. -/
theorem readReturnsTheRegister : Obligations.ReadReturnsTheRegister := by
  intro s r rest h
  obtain ⟨hsame, hsch, v, hreads, hv⟩ := readReg_spec r (s.setSchedule rest)
  refine ⟨readReg r (s.setSchedule rest), v, ?_, hsame, hsch, hreads, ?_⟩
  · rw [step_of_access h, hostAccess_read_offset]
  · cases r with
    | cmd => exact hv nofun
    | status => exact hv nofun
    | msglenLo => exact hv nofun
    | msglenHi => exact hv nofun
    | h i => exact fun hb => hv fun _ => hb
    | blk i => exact hv nofun
    | hex k => exact fun hb => hv fun _ => hb

theorem hostAccess_of_fault {s : State} (hf : s.status.fault = true) (a : Access) :
    hostAccess a s = faultStateAccess a s := by
  simp [hostAccess, hf]

theorem faultStateAccess_write {a : Access} {v : Word} (h : a.dir = .write v) (s : State) :
    faultStateAccess a s = s := by
  simp [faultStateAccess, h]

/-- A read in the fault state returns one value; it is the register's own where the access is an aligned 32-bit one of a
register and nothing is in flight. -/
theorem faultStateAccess_read {a : Access} (hread : a.dir = .read) {s : State} (hb : s.status.busy = false) :
    ∃ v, (faultStateAccess a s).reads = s.reads ++ [v] ∧
      ∀ r : Reg, a.width = 4 → a.off = r.offset → v = regValue s r := by
  simp only [faultStateAccess, hread]
  split
  · next hbad => exact ⟨_, rfl, fun r hw ho => by simp [hw, ho] at hbad⟩
  · split
    · next hnone => exact ⟨_, rfl, fun r _ ho => by simp [ho] at hnone⟩
    · next r hr =>
      obtain ⟨_, _, v, hreads, hv⟩ := readReg_spec r s
      refine ⟨v, hreads, fun r' _ ho => ?_⟩
      rw [ho, regAt_offset, Option.some_inj] at hr
      exact hr ▸ hv fun _ => hb

theorem State.Coherent.not_busy_of_pend_none {s : State} (hc : s.Coherent) (hp : s.pend = none) :
    s.status.busy = false := by
  obtain ⟨hbusy, _⟩ := hc
  simpa [hp] using hbusy

/-- Nothing is in flight in the fault state (10_state R24, 44_host_access R130). -/
theorem State.Coherent.not_busy_of_fault {s : State} (hc : s.Coherent) (hf : s.status.fault = true) :
    s.status.busy = false := by
  have hpend : s.pend = none := by
    obtain ⟨_, _, _, hpend, _⟩ := hc
    exact hpend hf
  exact hc.not_busy_of_pend_none hpend

/-- Settles O38: in the fault state an access is `faultStateAccess`, and a coherent fault state is not busy. -/
theorem faultStateAccessChangesNothing : Obligations.FaultStateAccessChangesNothing := by
  intro s a rest hc hf h
  have hf' : (s.setSchedule rest).status.fault = true := hf
  have hstep : step s = .next (faultStateAccess a (s.setSchedule rest)) := by
    rw [step_of_access h, hostAccess_of_fault hf']
  refine ⟨fun v hw => ?_, fun hr => ?_⟩
  · rw [hstep, faultStateAccess_write hw]; rfl
  · obtain ⟨v, hreads, hv⟩ := faultStateAccess_read hr (s := s.setSchedule rest) (hc.not_busy_of_fault hf)
    obtain ⟨hsame, _⟩ := faultStateAccess_spec a (s.setSchedule rest)
    exact ⟨_, v, hstep, hsame, hreads, hv⟩

/-! ### Writes while idle (44_host_access R127, R129) -/

/-- A step that is an idle block's write of a writable register. -/
theorem step_of_idle_write {s : State} {r : Reg} {v : Word} {rest : List Event} (hidle : s.Idle)
    (hr : isReadOnly r = false)
    (h : s.schedule = .access { off := r.offset, width := 4, dir := .write v } :: rest) :
    step s = .next (hostWrite r v (s.setSchedule rest)) := by
  have hidle' : (s.setSchedule rest).Idle := hidle
  rw [step_of_access h, hostAccess_write_of_idle hidle' hr]

/-- Settles O27, register by register. -/
theorem hostWriteStoresItsRegisterOnly : Obligations.HostWriteStoresItsRegisterOnly := by
  intro s v rest hidle
  refine ⟨fun h => step_of_idle_write (r := .msglenLo) hidle rfl h,
    fun h => step_of_idle_write (r := .msglenHi) hidle rfl h, fun i o ho h => ?_⟩
  have hoff : o = Reg.offset (.blk i) := Fin.ext ho
  subst hoff
  exact step_of_idle_write hidle rfl h

/-- A command word written while idle is issued. -/
theorem step_of_idle_command_write {s : State} {w : Word} {rest : List Event} (hidle : s.Idle)
    (h : s.schedule = .access { off := 0, width := 4, dir := .write w } :: rest) :
    step s = .next (issue w (s.setSchedule rest)) :=
  step_of_idle_write (r := .cmd) hidle rfl h

theorem changesDigest_iff (i : Instr) : changesDigest i = true ↔ i = .compress ∨ i = .final := by
  cases i <;> simp [changesDigest]

/-- Settles O29, by the three cases of issue. -/
theorem commandWriteFollowsItsThreeCases : Obligations.CommandWriteFollowsItsThreeCases := by
  intro s w rest hidle h
  refine ⟨issue w (s.setSchedule rest), step_of_idle_command_write hidle h, ?_⟩
  rcases issue_cases w (s.setSchedule rest) with ⟨⟨why, hd⟩, hi⟩ | ⟨i, hd, ⟨hc, hdone⟩, hi⟩ | ⟨i, hd, hguard, hi⟩ <;>
    rw [hi, hd]
  · exact ⟨raiseFault_schedule _ _, raiseFault_enters .illegalCmd (s.setSchedule rest)⟩
  · refine ⟨raiseFault_schedule _ _, ?_⟩
    dsimp only
    rw [if_pos ⟨(changesDigest_iff i).mp hc, hdone⟩]
    exact raiseFault_enters .sequence (s.setSchedule rest)
  · refine ⟨rfl, ?_⟩
    have hok : ¬ ((i = .compress ∨ i = .final) ∧ s.status.done = true) := fun ⟨hci, hdone⟩ =>
      Bool.false_ne_true ((hguard ((changesDigest_iff i).mpr hci)).symm.trans hdone)
    dsimp only
    rw [if_neg hok]
    rfl

/-- Issue of a word that decodes to a command which DONE does not forbid. -/
theorem issue_of_command {w : Word} {i : Instr} {s : State} (hd : decode w = .command i)
    (hguard : i = .compress ∨ i = .final → s.status.done = false) :
    issue w s = (s.setPend (some i)).setBusy true := by
  have hok : (changesDigest i && s.status.done) = false := by
    cases hc : changesDigest i with
    | false => rfl
    | true => exact hguard ((changesDigest_iff i).mp hc)
  simp [issue, hd, hok]

/-- Settles O8: the write makes the command pending, and CORE's turn performs it. -/
theorem commandWriteThenCoreTurnRunsTheDecodedCommand :
    Obligations.CommandWriteThenCoreTurnRunsTheDecodedCommand := by
  intro s w i rest hidle hd hguard h
  refine ⟨_, step_of_idle_command_write hidle h, ?_, ?_⟩ <;>
    rw [issue_of_command (s := s.setSchedule (.core :: rest)) hd hguard]
  · rfl
  · rw [step_of_core rfl, coreStep_of_pending rfl]
    rfl

/-! ### A pending command is performed in the end (44_host_access R140, R141) -/

theorem SameBlock.refl (s : State) : SameBlock s s := ⟨rfl, rfl, rfl, rfl, rfl, rfl, rfl⟩

theorem SameBlock.pend_eq {s t : State} (h : SameBlock s t) : t.pend = s.pend := by
  obtain ⟨_, _, _, _, _, _, hpend⟩ := h
  exact hpend

theorem SameBlock.trans {s t u : State} (hst : SameBlock s t) (htu : SameBlock t u) : SameBlock s u := by
  obtain ⟨hh, hblk, hlo, hhi, hhex, hstatus, hpend⟩ := hst
  simpa only [SameBlock, hh, hblk, hlo, hhi, hhex, hstatus, hpend] using htu

/-- With no event left, one step leaves nothing pending. -/
theorem step_of_nil_pend {s t : State} (h : s.schedule = []) (hstep : step s = .next t) : t.pend = none := by
  rw [step_of_nil h] at hstep
  cases hp : s.pend with
  | none => rw [coreStep_of_nothing_pending hp] at hstep; cases hstep; exact hp
  | some i => rw [coreStep_of_pending hp] at hstep; exact (exec_next_status hstep).1

/-- A coherent run over all its events and one step more ends coherent, with no event left and nothing pending. -/
theorem exists_run_past_schedule {s : State} (hc : s.Coherent) :
    ∃ t, Host.Core.run core (s.schedule.length + 1) s = .next t ∧ t.Coherent ∧ t.schedule = [] ∧ t.pend = none := by
  induction hes : s.schedule generalizing s with
  | nil =>
    obtain ⟨t, hstep⟩ := everyStepAnswersANextState s
    have hsch : t.schedule = [] := by rw [step_schedule hstep, hes, List.tail_nil]
    exact ⟨t, run_succ_of_step 0 hstep, everyStepKeepsCoherence s t hc hstep, hsch, step_of_nil_pend hes hstep⟩
  | cons e rest ih =>
    obtain ⟨u, hstep⟩ := everyStepAnswersANextState s
    have hsch : u.schedule = rest := by rw [step_schedule hstep, hes, List.tail_cons]
    obtain ⟨t, hrun, hend⟩ := ih (everyStepKeepsCoherence s u hc hstep) hsch
    exact ⟨t, (run_succ_of_step _ hstep).trans hrun, hend⟩

/-- A step that performs a command performs the pending one. -/
theorem step_of_nextCommand {s : State} {i : Instr} (h : s.nextCommand = some i) :
    s.pend = some i ∧ step s = exec i (s.setSchedule s.schedule.tail) := by
  rcases step_cases s with ⟨j, hj, hp, hs⟩ | ⟨hn, _⟩ | ⟨hn, _⟩ | ⟨hn, _⟩
  · cases hj.symm.trans h
    exact ⟨hp, hs⟩
  all_goals cases hn.symm.trans h

theorem head?_performed_of_nextCommand {s : State} {i : Instr} (k : Nat) (h : s.nextCommand = some i) :
    (performed (k + 1) s).head? = some (i, s) := by
  simp [performed, h]

/-- A pending command waits unchanged for CORE and is the first one performed, in a run that is neither reset nor faulted:
each step before CORE's leaves the whole block. -/
theorem pending_command_performed_first {s t : State} {i : Instr} (hc : s.Coherent) (hp : s.pend = some i)
    (hreset : ∀ e ∈ s.schedule, e ≠ .reset) (hrun : Host.Core.run core (s.schedule.length + 1) s = .next t)
    (hf : t.status.fault = false) :
    ∃ u, (performed (s.schedule.length + 1) s).head? = some (i, u) ∧ SameBlock s u ∧
      step u = exec i { u with schedule := u.schedule.tail } := by
  induction hes : s.schedule generalizing s with
  | nil =>
    have hn : s.nextCommand = some i := by simp [State.nextCommand, hes, hp]
    exact ⟨s, head?_performed_of_nextCommand _ hn, SameBlock.refl s, (step_of_nextCommand hn).2⟩
  | cons e rest ih =>
    obtain ⟨u, hstep, hrun⟩ := run_succ_inv hrun
    have hsch : u.schedule = rest := by rw [step_schedule hstep, hes, List.tail_cons]
    cases hn : s.nextCommand with
    | some j =>
      obtain ⟨hpj, hs⟩ := step_of_nextCommand hn
      cases hpj.symm.trans hp
      exact ⟨s, head?_performed_of_nextCommand _ hn, SameBlock.refl s, hs⟩
    | none =>
      rw [hes, List.length_cons, ← hsch] at hrun
      have hrest : ∀ e ∈ u.schedule, e ≠ .reset := fun e he =>
        hreset e (List.mem_of_mem_tail (step_schedule hstep ▸ he))
      have hnext : ¬ s.ResetNext := fun h => hreset _ (List.mem_of_mem_head? h) rfl
      have hpend : s.pend ≠ none := by simp [hp]
      rcases operandsAreStableWhileBusy s u hc hpend hstep hn hnext with hsame | ⟨_, hfu, _⟩
      · obtain ⟨v, hperf, hsame', hs⟩ :=
          ih (everyStepKeepsCoherence s u hc hstep) (hsame.pend_eq.trans hp) hrest hrun hsch
        exact ⟨v, by rwa [List.length_cons, performed_succ_of_none _ hn hstep], hsame.trans hsame', hs⟩
      · cases hfu.symm.trans (run_digestDone hrest hrun hf).1

/-- Settles O12: the run past its events ends coherent with nothing pending, so idle. -/
theorem pendingCommandIsPerformedInTheEnd : Obligations.PendingCommandIsPerformedInTheEnd := by
  intro s hc
  obtain ⟨t, hrun, hct, hsch, hpend⟩ := exists_run_past_schedule hc
  refine ⟨t, hrun, hpend, ?_, fun hreset hf i hp => pending_command_performed_first hc hp hreset hrun hf⟩
  cases hf : t.status.fault with
  | true => exact .inl rfl
  | false => exact .inr ⟨hsch, hct.not_busy_of_pend_none hpend, hf⟩

end Sys2Proof.Machine

/-! The exceptions (60_exceptions): the cause an access raises outside the fault state, that fault entry is the only way
into the fault state and reset the only way out, and the six conditions one by one and in their order. -/

namespace Sys2Proof.Machine

/-! ### The fault state and CAUSE along a step (60_exceptions R149, R156, R161) -/

/-- Settles O26. -/
theorem causeCodesAreTheSpecTable : Obligations.CauseCodesAreTheSpecTable := ⟨rfl, rfl, rfl, rfl, rfl, rfl, rfl, rfl⟩

/-- A host access leaves CAUSE as it was or sets it by fault entry, which never sets INTERNAL. -/
theorem hostAccess_cause_ne_internal (a : Access) {s : State} (h : s.status.cause ≠ .internal) :
    (hostAccess a s).status.cause ≠ .internal := by
  rcases hostAccess_cases a s with
    hsame | ⟨_, c, _, hint, hfault⟩ | ⟨_, _, _, _, hs⟩ | ⟨_, _, _, hs⟩ | ⟨_, _, _, hs⟩ | ⟨_, _, _, _, _, _, hs⟩
  · obtain ⟨_, _, _, _, _, hstatus, _⟩ := hsame
    rwa [hstatus]
  · obtain ⟨_, hcause, _⟩ := hfault
    rwa [hcause]
  all_goals simpa [hs] using h

/-- Settles O15, by the kind of step. -/
theorem internalCauseIsNeverRaised : Obligations.InternalCauseIsNeverRaised := by
  intro s t hstep h
  rcases step_next_cases hstep with ⟨_, _, hexec⟩ | ⟨_, rfl⟩ | ⟨a, _, rfl⟩ | rfl
  · obtain ⟨_, _, _, hcause⟩ := exec_next_status hexec
    rwa [hcause]
  · simp
  · exact hostAccess_cause_ne_internal a h
  · exact h

/-- Settles O16: in a coherent fault state nothing is pending, so CORE has nothing to perform, and an access there leaves
the block. -/
theorem onlyResetLeavesTheFaultState : Obligations.OnlyResetLeavesTheFaultState := by
  intro s t hc hf hstep
  have hpend : s.pend = none := by
    obtain ⟨_, _, _, hpend, _⟩ := hc
    exact hpend hf
  rcases step_cases s with ⟨i, _, hp, _⟩ | ⟨_, hr, hs⟩ | ⟨_, hr, a, _, hs⟩ | ⟨_, hr, _, hs⟩
  · cases hpend.symm.trans hp
  all_goals
    rw [hs] at hstep
    cases hstep
  · exact ⟨fun _ => rfl, absurd hr⟩
  · refine ⟨(absurd · hr), fun _ => ?_⟩
    rw [hostAccess_of_fault (s := s.setSchedule s.schedule.tail) hf]
    exact (faultStateAccess_spec a _).1
  · exact ⟨(absurd · hr), fun _ => SameBlock.refl s⟩

/-! ### The cause an access raises (44_host_access R124, R129) -/

/-- The cause a command word written while idle raises; `noFault` if none (44_host_access R129). -/
def issueCause (st : Status) (v : Word) : Cause :=
  match decode v with
  | .illegal _ => .illegalCmd
  | .command i => if changesDigest i && st.done then .sequence else .noFault

theorem issueCause_of_illegal (st : Status) {v : Word} {why : IllegalWord} (hd : decode v = .illegal why) :
    issueCause st v = .illegalCmd := by
  simp [issueCause, hd]

theorem issueCause_of_command (st : Status) {v : Word} {i : Instr} (hd : decode v = .command i) :
    issueCause st v = if changesDigest i = true ∧ st.done = true then .sequence else .noFault := by
  simp [issueCause, hd]

/-- The cause an admitted write to register `r` raises; `noFault` if none (44_host_access R124). -/
def writeCause (st : Status) (r : Reg) (v : Word) : Cause :=
  if isReadOnly r then .writeRo
  else if st.busy then .busyWrite
  else if r = .cmd then issueCause st v
  else .noFault

/-- The cause an access raises outside the fault state; `noFault` if none (44_host_access R124). -/
def accessCause (st : Status) (a : Access) : Cause :=
  if a.width ≠ 4 ∨ a.off.val % 4 ≠ 0 then .badAccess
  else match regAt a.off, a.dir with
    | none, _ => .unmapped
    | some _, .read => .noFault
    | some r, .write v => writeCause st r v

/-- `t` is what an access in direction `dir` whose cause is `c` leaves of `s`, as far as faults go: fault entry, or FAULT
and CAUSE as they were. -/
abbrev FaultsAs (dir : Dir) (c : Cause) (s t : State) : Prop :=
  (c ≠ .noFault ∧ t = raiseFaultOn dir c s) ∨
  (c = .noFault ∧ t.status.fault = s.status.fault ∧ t.status.cause = s.status.cause)

theorem issue_faultsAs (v : Word) (s : State) : FaultsAs (.write v) (issueCause s.status v) s (issue v s) := by
  rcases issue_cases v s with ⟨⟨why, hd⟩, h⟩ | ⟨i, hd, ⟨hc, hdone⟩, h⟩ | ⟨i, hd, hguard, h⟩ <;> rw [h]
  · exact .inl (by simp [issueCause_of_illegal _ hd, raiseFaultOn])
  · exact .inl (by simp [issueCause_of_command _ hd, hc, hdone, raiseFaultOn])
  · exact .inr (by simpa [issueCause_of_command _ hd] using hguard)

theorem regAccess_write_faultsAs (r : Reg) (v : Word) (s : State) :
    FaultsAs (.write v) (writeCause s.status r v) s (regAccess r (.write v) s) := by
  unfold writeCause regAccess
  cases hro : isReadOnly r with
  | true => exact .inl (by simp)
  | false =>
    cases hb : s.status.busy with
    | true => exact .inl (by simp)
    | false =>
      cases r with
      | cmd => simpa [hostWrite] using issue_faultsAs v s
      | status | h | hex => cases hro
      | msglenLo | msglenHi | blk => exact .inr (by simp [hostWrite, writeReg])

/-- Outside the fault state an access does by its cause (44_host_access R124). -/
theorem hostAccess_faultsAs (a : Access) {s : State} (hf : s.status.fault = false) :
    FaultsAs a.dir (accessCause s.status a) s (hostAccess a s) := by
  obtain ⟨off, width, dir⟩ := a
  simp only [hostAccess, accessCause, hf, Bool.false_eq_true, if_false]
  split
  · exact .inl ⟨nofun, rfl⟩
  · cases hreg : regAt off with
    | none => exact .inl ⟨nofun, rfl⟩
    | some r =>
      cases dir with
      | read =>
        obtain ⟨⟨_, _, _, _, _, hstatus, _⟩, _⟩ := readReg_spec r s
        exact .inr ⟨rfl, by simp [regAccess, hstatus]⟩
      | write v => exact regAccess_write_faultsAs r v s

theorem FaultEntered.code_eq {c : Cause} {s t : State} (h : FaultEntered c s t) : t.status.cause.code = c.code := by
  obtain ⟨_, hcause, _⟩ := h
  rw [hcause]

/-- An access that raises a cause enters the fault state by the one rule of fault entry (60_exceptions R157). -/
theorem step_of_accessCause {s : State} {a : Access} {rest : List Event} {c : Cause} (hf : s.status.fault = false)
    (h : s.schedule = .access a :: rest) (hc : accessCause s.status a = c) (hne : c ≠ .noFault) :
    ∃ t, step s = .next t ∧ FaultEntered c s t ∧ t.status.cause.code = c.code ∧ ReturnsToHost a.dir s t := by
  have hfaults := hostAccess_faultsAs a (s := s.setSchedule rest) hf
  rw [State.setSchedule_status, hc] at hfaults
  rcases hfaults with ⟨_, ht⟩ | ⟨hno, _⟩
  · have hentered : FaultEntered c s (raiseFaultOn a.dir c (s.setSchedule rest)) := raiseFaultOn_enters _ _ _
    obtain ⟨_, _, hreturns⟩ := raiseFaultOn_spec a.dir c (s.setSchedule rest)
    exact ⟨_, (step_of_access h).trans (congrArg _ ht), hentered, hentered.code_eq, hreturns⟩
  · exact absurd hno hne

/-! ### The registers of the address map (20_memory R42) -/

theorem exists_regAt_of_mapped {o : Offset} (h : ¬ ((0x024 ≤ o.val ∧ o.val ≤ 0x03F) ∨ 0x0A8 ≤ o.val)) :
    ∃ r, regAt o = some r :=
  Option.ne_none_iff_exists'.mp (mt (regAt_eq_none_iff o).mp h)

/-- STATUS, H and HEX by their offsets. -/
theorem isReadOnly_iff_of_regAt {o : Offset} {r : Reg} (h : regAt o = some r) :
    isReadOnly r = true ↔
      (0x004 ≤ o.val ∧ o.val < 0x008) ∨ (0x010 ≤ o.val ∧ o.val < 0x024) ∨ (0x080 ≤ o.val ∧ o.val < 0x0A8) := by
  unfold regAt at h
  repeat' split at h
  all_goals cases h
  all_goals simp only [isReadOnly, Bool.false_eq_true, true_iff, false_iff]
  all_goals omega

theorem eq_cmd_iff_of_regAt {o : Offset} {r : Reg} (h : regAt o = some r) : r = .cmd ↔ o.val < 0x004 := by
  unfold regAt at h
  repeat' split at h
  all_goals cases h
  all_goals simp
  all_goals omega

/-! ### The conditions one by one (60_exceptions R150–R155) -/

theorem accessCause_of_unmapped (st : Status) {o : Offset} (dir : Dir) (halign : o.val % 4 = 0)
    (h : regAt o = none) : accessCause st { off := o, width := 4, dir := dir } = .unmapped := by
  simp [accessCause, halign, h]

theorem accessCause_of_write (st : Status) {o : Offset} {r : Reg} (v : Word) (halign : o.val % 4 = 0)
    (h : regAt o = some r) : accessCause st { off := o, width := 4, dir := .write v } = writeCause st r v := by
  simp [accessCause, halign, h]

/-- Settles O31. -/
theorem wrongWidthOrAlignmentRaisesBadAccess : Obligations.WrongWidthOrAlignmentRaisesBadAccess :=
  fun _ _ _ hf h hbad => step_of_accessCause hf h (if_pos hbad) nofun

/-- Settles O32. -/
theorem unmappedOffsetRaisesUnmapped : Obligations.UnmappedOffsetRaisesUnmapped := fun s o dir _ hf h halign hrange =>
  step_of_accessCause hf h (accessCause_of_unmapped s.status dir halign ((regAt_eq_none_iff o).mpr hrange)) nofun

/-- Settles O33: the offsets named are those of the read-only registers. -/
theorem readOnlyWriteRaisesWriteRo : Obligations.ReadOnlyWriteRaisesWriteRo := by
  intro s o v rest hf h halign hrange
  obtain ⟨r, hr⟩ := exists_regAt_of_mapped (o := o) (by omega)
  have hro : isReadOnly r = true := (isReadOnly_iff_of_regAt hr).mpr (by omega)
  have hc : accessCause s.status _ = .writeRo :=
    (accessCause_of_write s.status v halign hr).trans (by simp [writeCause, hro])
  exact step_of_accessCause hf h hc nofun

/-- Settles O34: the offsets named hold registers that are not read-only. -/
theorem writeWhileBusyRaisesBusyWrite : Obligations.WriteWhileBusyRaisesBusyWrite := by
  intro s o v rest hf hb h halign hrange
  obtain ⟨r, hr⟩ := exists_regAt_of_mapped (o := o) (by omega)
  have hro : ¬ isReadOnly r = true := mt (isReadOnly_iff_of_regAt hr).mp (by omega)
  have hc : accessCause s.status _ = .busyWrite :=
    (accessCause_of_write s.status v halign hr).trans (by simp [writeCause, hro, hb])
  exact step_of_accessCause hf h hc nofun

/-- No command's word meets a ground of 60_exceptions R154. -/
theorem encode_meets_no_illegal_ground (i : Instr) :
    ¬ ((encode i).toNat % 16 = 0 ∨ 5 ≤ (encode i).toNat % 16 ∨ (encode i).toNat / 32 ≠ 0 ∨
      ((encode i).toNat / 16 % 2 = 1 ∧
        ((encode i).toNat % 16 = 1 ∨ (encode i).toNat % 16 = 2 ∨ (encode i).toNat % 16 = 3))) := by
  revert i
  rw [forall_instr_iff]
  decide

/-- Settles O35: a word on one of the grounds is no command's, so the write is the first case of issue. -/
theorem illegalWordRaisesIllegalCmd : Obligations.IllegalWordRaisesIllegalCmd := by
  intro s w rest hidle h hground
  obtain ⟨why, hd⟩ := (decode_illegal_iff w).mpr fun i hw => encode_meets_no_illegal_ground i (hw ▸ hground)
  obtain ⟨t, hstep, _, ht⟩ := commandWriteFollowsItsThreeCases s w rest hidle h
  rw [hd] at ht
  exact ⟨t, hstep, ht, ht.code_eq⟩

/-- A command's word written while idle raises SEQUENCE exactly if the command is COMPRESS or FINAL and DONE = 1, and no
other cause (44_host_access R129). -/
theorem step_of_idle_legal_command_write {s : State} {w : Word} {rest : List Event} (hidle : s.Idle)
    (h : s.schedule = .access { off := 0, width := 4, dir := .write w } :: rest) :
    ∃ t, step s = .next t ∧ ∀ i, w = encode i →
      if changesDigest i = true ∧ s.status.done = true then FaultEntered .sequence s t else t.status.fault = false := by
  have ⟨hf, _⟩ := hidle
  obtain ⟨t, hstep, _, ht⟩ := commandWriteFollowsItsThreeCases s w rest hidle h
  refine ⟨t, hstep, fun i hw => ?_⟩
  rw [(decode_eq_command_iff w i).mpr hw] at ht
  simp only [← changesDigest_iff] at ht
  split at ht
  next hguard => rwa [if_pos hguard]
  next hguard => rw [if_neg hguard, ht]; exact hf

/-- Settles O36, word by word. -/
theorem compressionAfterFinalRaisesSequence : Obligations.CompressionAfterFinalRaisesSequence := by
  intro s w rest hidle h
  obtain ⟨t, hstep, ht⟩ := step_of_idle_legal_command_write hidle h
  have hsequence {i : Instr} (hw : w = encode i) (hc : changesDigest i = true) (hdone : s.status.done = true) :
      FaultEntered .sequence s t := by
    simpa only [hc, hdone, and_self, if_true] using ht i hw
  have hnone {i : Instr} (hw : w = encode i) (hc : changesDigest i = false) : t.status.fault = false := by
    simpa only [hc, Bool.false_eq_true, false_and, if_false] using ht i hw
  refine ⟨t, hstep, fun hdone hw => ?_, ?_⟩
  · have hentered : FaultEntered .sequence s t := by
      rcases hw with hw | hw
      · exact hsequence (hw.trans encode_compress.symm) rfl hdone
      · exact hsequence (hw.trans encode_final.symm) rfl hdone
    exact ⟨hentered, hentered.code_eq⟩
  · rintro (hw | hw | hw)
    · exact hnone (hw.trans encode_init.symm) rfl
    · exact hnone (hw.trans encode_lower.symm) rfl
    · exact hnone (hw.trans encode_upper.symm) rfl

/-! ### The one rule of fault entry (60_exceptions R157) -/

/-- A cause of issue comes from a write to CMD while idle; the other causes are those an access can raise while busy. -/
theorem accessCause_cases (st : Status) (a : Access) :
    accessCause st a ∈ [.noFault, .badAccess, .unmapped, .writeRo, .busyWrite] ∨
    (st.busy = false ∧ a.off = 0 ∧ a.dir ≠ .read) := by
  obtain ⟨off, width, dir⟩ := a
  by_cases hbad : width ≠ 4 ∨ off.val % 4 ≠ 0
  · exact .inl (by simp [accessCause, hbad])
  obtain ⟨rfl, halign⟩ : width = 4 ∧ off.val % 4 = 0 := by simpa using hbad
  cases hreg : regAt off with
  | none => exact .inl (by simp [accessCause_of_unmapped st dir halign hreg])
  | some r =>
    cases dir with
    | read => exact .inl (by simp [accessCause, halign, hreg])
    | write v =>
      rw [accessCause_of_write st v halign hreg, writeCause]
      split
      · exact .inl (by simp)
      split
      · exact .inl (by simp)
      next hb =>
        split
        next hcmd =>
          have hlow := (eq_cmd_iff_of_regAt hreg).mp hcmd
          have hzero : off = 0 := Fin.ext (show off.val = 0 by omega)
          exact .inr ⟨by simpa using hb, hzero, nofun⟩
        next => exact .inl (by simp)

/-- Settles O30: neither a command nor a reset nor an idle turn sets FAULT, and an access sets it by its cause. -/
theorem everyFaultIsEnteredByOneRule : Obligations.EveryFaultIsEnteredByOneRule := by
  intro s t hf hstep hft
  rcases step_next_cases hstep with ⟨_, _, hexec⟩ | ⟨_, rfl⟩ | ⟨a, ha, rfl⟩ | rfl
  · obtain ⟨_, _, hkeep, _⟩ := exec_next_status hexec
    cases hft.symm.trans (hkeep.trans hf)
  · cases hft
  · rcases hostAccess_faultsAs a (s := s.setSchedule s.schedule.tail) hf with ⟨hne, ht⟩ | ⟨_, hkeep, _⟩
    · obtain ⟨_, _, hreturns⟩ := raiseFaultOn_spec a.dir (accessCause s.status a) (s.setSchedule s.schedule.tail)
      have hcases := accessCause_cases s.status a
      rw [State.setSchedule_status] at hne ht
      rw [ht]
      refine ⟨a, accessCause s.status a, ha, hne, raiseFaultOn_enters _ _ _, hreturns, fun hb => ?_, fun hissue => ?_⟩
      · simpa [hb, hne] using hcases
      · rcases hissue with hc | hc <;> simpa [hc] using hcases
    · cases hft.symm.trans (hkeep.trans hf)
  · cases hft.symm.trans hf

/-! ### The order of the checks (60_exceptions R158) -/

/-- The first cause whose condition is met; `noFault` if none is. -/
def firstMet (conditions : List (Cause × Bool)) : Cause :=
  ((conditions.filter fun p => p.2).map fun p => p.1).head?.getD .noFault

theorem firstMet_nil : firstMet [] = .noFault := rfl

theorem firstMet_cons (c : Cause) (p : Prop) [Decidable p] (rest : List (Cause × Bool)) :
    firstMet ((c, decide p) :: rest) = if p then c else firstMet rest := by
  by_cases hp : p <;> simp [firstMet, hp]

/-- The causes in the order of the checks, each with its own condition (60_exceptions R150–R155, R158). -/
def causeConditions (st : Status) (a : Access) : List (Cause × Bool) :=
  [(.badAccess, decide (a.width ≠ 4 ∨ a.off.val % 4 ≠ 0)),
    (.unmapped, decide ((0x024 ≤ a.off.val ∧ a.off.val ≤ 0x03F) ∨ 0x0A8 ≤ a.off.val)),
    (.writeRo, decide (a.dir ≠ .read ∧ ((0x004 ≤ a.off.val ∧ a.off.val < 0x008) ∨
      (0x010 ≤ a.off.val ∧ a.off.val < 0x024) ∨ (0x080 ≤ a.off.val ∧ a.off.val < 0x0A8)))),
    (.busyWrite, decide (a.dir ≠ .read ∧ st.busy = true)),
    (.illegalCmd, decide (a.off.val < 0x004 ∧ a.dir ≠ .read ∧ a.dir ≠ .write 0x00000001 ∧
      a.dir ≠ .write 0x00000002 ∧ a.dir ≠ .write 0x00000003 ∧ a.dir ≠ .write 0x00000004 ∧
      a.dir ≠ .write 0x00000014)),
    (.sequence, decide (a.off.val < 0x004 ∧ st.done = true ∧
      (a.dir = .write 0x00000002 ∨ a.dir = .write 0x00000003)))]

/-- The cause of a command word by the five legal words (60_exceptions R154, R155). -/
theorem issueCause_eq (st : Status) (v : Word) :
    issueCause st v =
      if v ≠ 0x00000001 ∧ v ≠ 0x00000002 ∧ v ≠ 0x00000003 ∧ v ≠ 0x00000004 ∧ v ≠ 0x00000014 then .illegalCmd
      else if st.done = true ∧ (v = 0x00000002 ∨ v = 0x00000003) then .sequence
      else .noFault := by
  cases hd : decode v with
  | illegal why =>
    have hwords := (decode_illegal_iff v).mp ⟨why, hd⟩
    rw [forall_instr_iff, encode_init, encode_compress, encode_final, encode_lower, encode_upper] at hwords
    rw [if_pos hwords, issueCause_of_illegal st hd]
  | command i =>
    rcases (eq_encode_iff v i).mp ((decode_eq_command_iff v i).mp hd) with
      ⟨rfl, rfl⟩ | ⟨rfl, rfl⟩ | ⟨rfl, rfl⟩ | ⟨rfl, rfl⟩ | ⟨rfl, rfl⟩ <;>
    rw [issueCause_of_command st hd] <;> simp [changesDigest]

/-- Check by check: the cause of an access is the first whose condition it meets (44_host_access R124). -/
theorem accessCause_eq_firstMet (st : Status) (a : Access) : accessCause st a = firstMet (causeConditions st a) := by
  obtain ⟨off, width, dir⟩ := a
  simp only [causeConditions, firstMet_cons, firstMet_nil]
  by_cases hbad : width ≠ 4 ∨ off.val % 4 ≠ 0
  · rw [if_pos hbad, accessCause, if_pos hbad]
  rw [if_neg hbad]
  obtain ⟨rfl, halign⟩ : width = 4 ∧ off.val % 4 = 0 := by simpa using hbad
  cases hreg : regAt off with
  | none => rw [if_pos ((regAt_eq_none_iff off).mp hreg), accessCause_of_unmapped st dir halign hreg]
  | some r =>
    have hmapped := mt (regAt_eq_none_iff off).mpr (by simp [hreg])
    rw [if_neg hmapped]
    cases dir with
    | read => simp [accessCause, halign, hreg]
    | write v =>
      rw [accessCause_of_write st v halign hreg, writeCause]
      simp only [← isReadOnly_iff_of_regAt hreg, ← eq_cmd_iff_of_regAt hreg, issueCause_eq]
      by_cases hcmd : r = .cmd <;> simp [hcmd]

/-- Settles O37: CAUSE becomes the cause of the access, which is the first met. -/
theorem causeIsTheFirstInTheOrderOfChecks : Obligations.CauseIsTheFirstInTheOrderOfChecks := by
  intro s a rest hf hno h
  have hfirst := accessCause_eq_firstMet s.status a
  refine ⟨_, step_of_access h, ?_⟩
  rcases hostAccess_faultsAs a (s := s.setSchedule rest) hf with ⟨hne, ht⟩ | ⟨hc, hfault, hcause⟩
  · obtain ⟨htf, htc, _⟩ := raiseFaultOn_enters a.dir (accessCause s.status a) (s.setSchedule rest)
    rw [State.setSchedule_status] at hne ht
    rw [ht, htf, htc]
    exact ⟨hfirst, by simp [hne]⟩
  · rw [hfault, hcause]
    rw [State.setSchedule_status] at hc
    exact ⟨hno.trans (hc.symm.trans hfirst), by simp [hf, hno]⟩

end Sys2Proof.Machine

/-! Reset (70_reset_and_hazards): what a RESET step leaves, whatever state it finds. -/

namespace Sys2Proof.Machine

theorem step_of_reset {s : State} {rest : List Event} (h : s.schedule = .reset :: rest) :
    step s = .next (resetBlock (s.setSchedule rest)) := by
  simp [step, h, perform]

/-- Settles O1: the block that RESET leaves is that of the reset state, whose values are the spec's. -/
theorem resetStepSetsEveryRegister : Obligations.ResetStepSetsEveryRegister := by
  intro s rest h
  obtain ⟨hh, hblk, hlo, hhi, hhex, _, _, _, hpend⟩ := resetStateHoldsTheSpecValues
  exact ⟨_, step_of_reset h, hh, hblk, hlo, hhi, hhex, rfl, rfl, rfl, rfl, hpend, resetBlock_schedule _⟩

end Sys2Proof.Machine
